-- ==== Sys2Proof/Word.lean ====
section
/-! DEFINITION. Bytes and 14-bit words (00_scope.md R12, R13). -/

namespace Sys2Proof

/-- A frame byte is 8 bits (R12). -/
abbrev Byte := BitVec 8

/-- A Word14 value is 14 bits, 0..16383 (R12). -/
abbrev Word14 := BitVec 14

/-- A Frame is a finite sequence of u8 (R14). -/
abbrev Frame := List Byte

end Sys2Proof
end

