-- ==== Sys2Proof/Syntax.lean ====
section
/-! DEFINITION. The data types of the spec (00_scope.md R17) and the instructions: one constructor
of `Instr` for each row of spec/opcode_table.json. -/

namespace Sys2Proof

/-- The eleven command kinds (00_scope.md R8, R19). -/
inductive Kind
  | configuration | type | curve | pad | ready
  | monitorStart | monitorData | monitorEnd
  | scopeStart | scopeData | scopeEnd
deriving DecidableEq, Repr

/-- Every command kind, in the order of R8. -/
def Kind.all : List Kind :=
  [.configuration, .type, .curve, .pad, .ready, .monitorStart, .monitorData, .monitorEnd,
   .scopeStart, .scopeData, .scopeEnd]

/-- Field names: those of the layouts of R88 to R98, and `other n` for the names a configured TYPE or
READY layout may use (R89, R92; names carry no semantics, 90_conflicts.md C9). -/
inductive FieldName
  | start | vendor | command | endMarker
  | versionMajor | versionMinor | versionPatch | samplingRate | padCount | sensorCount
  | id | name | type | zoneCount
  | scanTime | maskTime | retriggerTime | curveId
  | headSensor | headSensitivity | headThreshold | headNote
  | rimSensor | rimSensitivity | rimThreshold | rimNote
  | padId | channelId | probeId | size | offset | samples
  | other (n : Nat)
deriving DecidableEq, Repr

/-- The five field descriptors and no sixth (R17, R82, R125). -/
inductive FieldDesc
  | marker
  | byte
  | word14
  | fixedText (n : Nat)
  | sampleArray14
deriving DecidableEq, Repr

/-- An ordered sequence of named field descriptors (R17). -/
abbrev FieldLayout := List (FieldName × FieldDesc)

/-- A field's value. The payloads are mathematical integers (R13), because the encoder is given any
integer and refuses those out of range (R118 to R121); decoding yields only those of R17. -/
inductive Value
  | byte (v : Int)
  | word (v : Int)
  | text (codes : List Int)
  | samples (vs : List Int)
deriving DecidableEq, Repr

/-- The ordered list of (name, value), one for each non-Marker field of a layout (R17). -/
abbrev Record := List (FieldName × Value)

/-- Compared as an exact 3-tuple (R17, R162). -/
structure VersionTriple where
  major : Byte
  minor : Byte
  patch : Byte
deriving DecidableEq, Repr

/-- The payload of CONFIGURATION (R32, R88). -/
structure ConfigRecord where
  versionMajor : Byte
  versionMinor : Byte
  versionPatch : Byte
  samplingRate : Byte
  padCount : Byte
  sensorCount : Byte
deriving DecidableEq, Repr

/-- The payload of CURVE (R90, R171). A text is its sequence of byte codes (D15). -/
structure CurveDescriptor where
  id : Byte
  name : List Byte
deriving DecidableEq, Repr

/-- The sixteen payload fields of PAD (R91, R172). -/
structure PadProperties where
  id : Byte
  type : Byte
  zoneCount : Byte
  name : List Byte
  scanTime : Byte
  maskTime : Byte
  retriggerTime : Byte
  curveId : Byte
  headSensor : Byte
  headSensitivity : Byte
  headThreshold : Byte
  headNote : Byte
  rimSensor : Byte
  rimSensitivity : Byte
  rimThreshold : Byte
  rimNote : Byte
deriving DecidableEq, Repr

/-- A channel key; `monitor p c` and `scope q` are never the same key (R34, R180). -/
inductive ChannelKey
  | monitor (padId channelId : Byte)
  | scope (probeId : Byte)
deriving DecidableEq, Repr

/-- The instructions: the eleven frames with their decoded operands, the ten field operations of the
FieldCodec, and the four operations that are not frames (R5, R106). -/
inductive Instr
  | configuration (r : ConfigRecord)
  | typeDef (payload : Record)
  | curveDef (c : CurveDescriptor)
  | padDef (p : PadProperties)
  | ready (payload : Record)
  | monitorStart (padId channelId : Byte) (size : Word14)
  | monitorData (padId channelId : Byte) (offset : Word14) (samples : List Int)
  | monitorEnd (padId channelId : Byte)
  | scopeStart (probeId : Byte) (size : Word14)
  | scopeData (probeId : Byte) (offset : Word14) (samples : List Int)
  | scopeEnd (probeId : Byte)
  | decMarker
  | decByte (field : FieldName)
  | decWord14 (field : FieldName)
  | decText (field : FieldName) (n : Nat)
  | decSamples (field : FieldName)
  | encMarker (index : Nat)
  | encByte (v : Int)
  | encWord14 (v : Int)
  | encText (n : Nat) (codes : List Int)
  | encSamples (vs : List Int)
  | disconnected
  | connected
  | hwReset
  | txEncode (kind : Kind) (payload : Record)
deriving DecidableEq, Repr

end Sys2Proof
end

