-- ==== Sys2Proof/Config.lean ====
section
/-! DEFINITION. The configuration `cfg` (00_scope.md R7 to R11). Its functions (the command map, the layout
table, admission, the reference values) stand in Sys2Proof/Machine/Layouts.lean. -/

namespace Sys2Proof

/-- What a DATA frame's `offset` field does (R11, R186). -/
inductive OffsetPolicy
  | rejectOnMismatch
  | ignore
deriving DecidableEq, Repr

/-- The command map `cfg.CMD` as a table of eleven bytes (R8). -/
structure CommandMap where
  configuration : Byte
  type : Byte
  curve : Byte
  pad : Byte
  ready : Byte
  monitorStart : Byte
  monitorData : Byte
  monitorEnd : Byte
  scopeStart : Byte
  scopeData : Byte
  scopeEnd : Byte
deriving DecidableEq, Repr

/-- The configuration, fixed before the first step and never changed by one (R7 to R11, R262). The nine
layouts that the source fixes are not fields: `Config.layout` gives them. -/
structure Config where
  startMarker : Byte
  vendorId : Byte
  endMarker : Byte
  cmds : CommandMap
  localVersion : VersionTriple
  layoutType : FieldLayout
  layoutReady : FieldLayout
  offsetPolicy : OffsetPolicy
deriving DecidableEq, Repr

end Sys2Proof
end

