-- ==== Sys2Proof/Machine/Layouts.lean ====
section
/-! DEFINITION. The command map, the eleven layouts (30_encoding.md R88 to R98), well-formed layouts and
admitted configurations (R8, R9, R103, R213, R245), and the reference configuration. -/

namespace Sys2Proof

/-- `cfg.CMD` (R8). -/
def Config.cmd (cfg : Config) : Kind → Byte
  | .configuration => cfg.cmds.configuration
  | .type => cfg.cmds.type
  | .curve => cfg.cmds.curve
  | .pad => cfg.cmds.pad
  | .ready => cfg.cmds.ready
  | .monitorStart => cfg.cmds.monitorStart
  | .monitorData => cfg.cmds.monitorData
  | .monitorEnd => cfg.cmds.monitorEnd
  | .scopeStart => cfg.cmds.scopeStart
  | .scopeData => cfg.cmds.scopeData
  | .scopeEnd => cfg.cmds.scopeEnd

/-- The Header's three fields, in every layout (R81). -/
def headerFields : FieldLayout :=
  [(.start, .marker), (.vendor, .byte), (.command, .byte)]

/-- A layout is the Header, the payload fields and the end Marker (R80). -/
def frameLayout (payload : FieldLayout) : FieldLayout :=
  headerFields ++ payload ++ [(.endMarker, .marker)]

/-- R88. -/
def configurationPayload : FieldLayout :=
  [(.versionMajor, .byte), (.versionMinor, .byte), (.versionPatch, .byte),
   (.samplingRate, .byte), (.padCount, .byte), (.sensorCount, .byte)]

/-- R90. -/
def curvePayload : FieldLayout := [(.id, .byte), (.name, .fixedText 9)]

/-- R91. -/
def padPayload : FieldLayout :=
  [(.id, .byte), (.type, .byte), (.zoneCount, .byte), (.name, .fixedText 13),
   (.scanTime, .byte), (.maskTime, .byte), (.retriggerTime, .byte), (.curveId, .byte),
   (.headSensor, .byte), (.headSensitivity, .byte), (.headThreshold, .byte), (.headNote, .byte),
   (.rimSensor, .byte), (.rimSensitivity, .byte), (.rimThreshold, .byte), (.rimNote, .byte)]

/-- R93. -/
def monitorStartPayload : FieldLayout :=
  [(.padId, .byte), (.channelId, .byte), (.size, .word14)]

/-- R94. -/
def monitorDataPayload : FieldLayout :=
  [(.padId, .byte), (.channelId, .byte), (.offset, .word14), (.samples, .sampleArray14)]

/-- R95. -/
def monitorEndPayload : FieldLayout := [(.padId, .byte), (.channelId, .byte)]

/-- R96. -/
def scopeStartPayload : FieldLayout := [(.probeId, .byte), (.size, .word14)]

/-- R97. -/
def scopeDataPayload : FieldLayout :=
  [(.probeId, .byte), (.offset, .word14), (.samples, .sampleArray14)]

/-- R98. -/
def scopeEndPayload : FieldLayout := [(.probeId, .byte)]

/-- The layout table `cfg.LAYOUT` (R10): nine layouts of the source, two of the configuration. -/
def Config.layout (cfg : Config) : Kind → FieldLayout
  | .configuration => frameLayout configurationPayload
  | .type => cfg.layoutType
  | .curve => frameLayout curvePayload
  | .pad => frameLayout padPayload
  | .ready => cfg.layoutReady
  | .monitorStart => frameLayout monitorStartPayload
  | .monitorData => frameLayout monitorDataPayload
  | .monitorEnd => frameLayout monitorEndPayload
  | .scopeStart => frameLayout scopeStartPayload
  | .scopeData => frameLayout scopeDataPayload
  | .scopeEnd => frameLayout scopeEndPayload

/-- Well-formed layouts, W1 to W3 and W5 of R103 (W4 holds of every `FieldDesc`). -/
def FieldLayout.wf (l : FieldLayout) : Bool :=
  (l.take 3 == headerFields) &&
  (l.drop 3).reverse.head?.any (fun f => f.2 == .marker) &&
  (l.drop 3).dropLast.all (fun f => f.2 != .marker) &&
  decide (l.map Prod.fst).Nodup

/-- Which configurations are admitted: CMD injective into 0..127 (R8), LOCAL_VERSION in 0..127 (R9), every layout
well-formed (R10, R103, R245). START_MARKER, VENDOR_ID and END_MARKER are any u8 (R7). -/
def Config.admitted (cfg : Config) : Bool :=
  decide (Kind.all.map cfg.cmd).Nodup &&
  Kind.all.all (fun k => (cfg.cmd k).toNat < 128) &&
  decide (cfg.localVersion.major.toNat < 128) &&
  decide (cfg.localVersion.minor.toNat < 128) &&
  decide (cfg.localVersion.patch.toNat < 128) &&
  Kind.all.all (fun k => (cfg.layout k).wf)

/-- The kind whose command byte is `c`, if any (R99, R142). -/
def Config.kindOf (cfg : Config) (c : Byte) : Option Kind :=
  Kind.all.find? (fun k => cfg.cmd k == c)

/-- The reference configuration of 95_test_vectors.md (R7 to R11): F0 and 66 and 02 and 0.1.1 are the
source's, the end marker is from general knowledge, the rest is the spec's own choice (log entry 6). -/
def Config.reference : Config where
  startMarker := 0xF0
  vendorId := 0x66
  endMarker := 0xF7
  cmds :=
    { configuration := 0x02, type := 0x03, curve := 0x04, pad := 0x05, ready := 0x06,
      monitorStart := 0x10, monitorData := 0x11, monitorEnd := 0x12,
      scopeStart := 0x20, scopeData := 0x21, scopeEnd := 0x22 }
  localVersion := ⟨0, 1, 1⟩
  layoutType := frameLayout [(.id, .byte), (.name, .fixedText 9)]
  layoutReady := frameLayout []
  offsetPolicy := .rejectOnMismatch

end Sys2Proof
end

