-- ==== Sys2Proof/WellFormed.lean ====
section
/-! DEFINITION. Which records fit a layout, and which instructions are well-formed. -/

namespace Sys2Proof

/-- The value is of the kind the descriptor carries (00_scope.md R17). -/
def Value.hasKind : FieldDesc → Value → Bool
  | .byte, .byte _ => true
  | .word14, .word _ => true
  | .fixedText _, .text _ => true
  | .sampleArray14, .samples _ => true
  | _, _ => false

/-- A sample that a Word14 can carry, −1024..15359 (30_encoding.md R87). -/
def sampleInRange (s : Int) : Bool := decide (-1024 ≤ s ∧ s ≤ 15359)

/-- The values a decode can yield (R17, R112 to R115): a Byte is 0..255, a text code 1..255. -/
def Value.wf : FieldDesc → Value → Bool
  | .byte, .byte v => decide (0 ≤ v ∧ v ≤ 255)
  | .word14, .word v => decide (0 ≤ v ∧ v ≤ 16383)
  | .fixedText n, .text cs => decide (cs.length ≤ n) && cs.all (fun c => decide (1 ≤ c ∧ c ≤ 255))
  | .sampleArray14, .samples vs => decide (vs.length ≤ 16383) && vs.all sampleInRange
  | _, _ => false

/-- The domain D of the round trip (40_field_codec.md R122): a Byte is 0..127, a text code 1..127. -/
def Value.inDomain : FieldDesc → Value → Bool
  | .byte, .byte v => decide (0 ≤ v ∧ v ≤ 127)
  | .word14, .word v => decide (0 ≤ v ∧ v ≤ 16383)
  | .fixedText n, .text cs => decide (cs.length ≤ n) && cs.all (fun c => decide (1 ≤ c ∧ c ≤ 127))
  | .sampleArray14, .samples vs => decide (vs.length ≤ 16383) && vs.all sampleInRange
  | _, _ => false

/-- The values the encoder accepts (40_field_codec.md R118 to R121; 60_exceptions.md R244): a text is judged by
its first n codes, the rest is cut off. -/
def Value.encodable : FieldDesc → Value → Bool
  | .byte, .byte v => decide (0 ≤ v ∧ v ≤ 127)
  | .word14, .word v => decide (0 ≤ v ∧ v ≤ 16383)
  | .fixedText n, .text cs => (cs.take n).all (fun c => decide (1 ≤ c ∧ c ≤ 127))
  | .sampleArray14, .samples vs => decide (vs.length ≤ 16383) && vs.all sampleInRange
  | _, _ => false

/-- One entry of the record for every non-Marker field of the layout, in layout order, under the field's
name, with a value that `p` admits for the field's descriptor (R17, R116). -/
def Record.fits (p : FieldDesc → Value → Bool) : FieldLayout → Record → Bool
  | [], [] => true
  | [], _ :: _ => false
  | (field, d) :: l, r =>
    if d = .marker then Record.fits p l r
    else match r with
      | [] => false
      | (field', v) :: r' => decide (field = field') && p d v && Record.fits p l r'

/-- The payload fields of a kind: every field but `start`, `vendor`, `command` and the end Marker (R213). -/
def Config.payloadFields (cfg : Config) (k : Kind) : FieldLayout := ((cfg.layout k).drop 3).dropLast

/-- A text of at most `n` codes, none zero (30_encoding.md R86). -/
def textWf (n : Nat) (cs : List Byte) : Bool := decide (cs.length ≤ n) && cs.all (fun c => c != 0)

/-- Samples of one DATA frame: at most 16383, each −1024..15359 (R87). -/
def samplesWf (vs : List Int) : Bool := decide (vs.length ≤ 16383) && vs.all sampleInRange

/-- The check on an instruction's operands. A frame's operands are those a decode can yield; a record to
encode has the shape its layout asks for (R116, D39), whatever its integers; the operand of a field
operation is any integer, text or list (the operation itself refuses what is out of range). -/
def Instr.wf (cfg : Config) : Instr → Bool
  | .configuration _ => true
  | .typeDef p => Record.fits Value.wf (cfg.payloadFields .type) p
  | .curveDef c => textWf 9 c.name
  | .padDef p => textWf 13 p.name
  | .ready p => Record.fits Value.wf (cfg.payloadFields .ready) p
  | .monitorStart _ _ _ => true
  | .monitorData _ _ _ vs => samplesWf vs
  | .monitorEnd _ _ => true
  | .scopeStart _ _ => true
  | .scopeData _ _ vs => samplesWf vs
  | .scopeEnd _ => true
  | .decMarker => true
  | .decByte _ => true
  | .decWord14 _ => true
  | .decText _ _ => true
  | .decSamples _ => true
  | .encMarker _ => true
  | .encByte _ => true
  | .encWord14 _ => true
  | .encText _ _ => true
  | .encSamples _ => true
  | .disconnected => true
  | .connected => true
  | .hwReset => true
  | .txEncode k p => Record.fits Value.hasKind (cfg.payloadFields k) p

end Sys2Proof
end

