-- ==== Sys2Proof/Decode.lean ====
section
/-! DEFINITION. The FieldCodec (40_field_codec.md): the ten field operations, `decode` and `encode`; the
dispatcher's stages 1 to 3 (41_dispatch.md R141 to R143), which read an instruction from a frame; and the
encoder of instructions. -/

namespace Sys2Proof

/-- The two variants of DecodeError, each with the offset it reports (R110, R231; D10). -/
inductive DecodeError
  | truncated (off : Nat)
  | invalidEncoding (off : Nat)
deriving DecidableEq, Repr

/-- Why an encode yields no frame. `outOfRange` is the spec's one EncodeError (R116, R244); `illShaped` says
that the record does not fit its layout, the precondition of R116 (D39). -/
inductive EncodeStop
  | outOfRange
  | illShaped
deriving DecidableEq, Repr

/-! ### Decode -/

/-- The frame byte at an offset; every caller has checked the bound (20_memory.md R65). -/
def Frame.at (f : Frame) (off : Nat) : Byte := f.getD off 0

/-- DEC_MARKER, R111. -/
def decMarker (f : Frame) (off : Nat) : Except DecodeError Nat :=
  if off + 1 > f.length then .error (.truncated off) else .ok (off + 1)

/-- DEC_BYTE, R112: the byte verbatim. -/
def decByte (f : Frame) (off : Nat) : Except DecodeError (Byte × Nat) :=
  if off + 1 > f.length then .error (.truncated off) else .ok (Frame.at f off, off + 1)

/-- DEC_WORD14, R113: the bounds check before the high-bit check. -/
def decWord14 (f : Frame) (off : Nat) : Except DecodeError (Nat × Nat) :=
  if off + 2 > f.length then .error (.truncated off)
  else
    let m := Frame.at f off
    let l := Frame.at f (off + 1)
    if m.msb || l.msb then .error (.invalidEncoding off)
    else .ok ((m.toNat <<< 7) ||| l.toNat, off + 2)

/-- DEC_TEXT, R114: n bytes, every zero byte dropped. -/
def decText (n : Nat) (f : Frame) (off : Nat) : Except DecodeError (List Byte × Nat) :=
  if off + n > f.length then .error (.truncated off)
  else .ok (((f.drop off).take n).filter (fun b => b != 0), off + n)

/-- The loop of DEC_SAMPLES: `count` Word14 words (R115). -/
def decWords : Nat → Frame → Nat → Except DecodeError (List Nat × Nat)
  | 0, _, off => .ok ([], off)
  | count + 1, f, off =>
    match decWord14 f off with
    | .error e => .error e
    | .ok (w, off') =>
      match decWords count f off' with
      | .error e => .error e
      | .ok (ws, fin) => .ok (w :: ws, fin)

/-- DEC_SAMPLES, R115: a length word L, then L words, 1024 subtracted from each. -/
def decSamples (f : Frame) (off : Nat) : Except DecodeError (List Int × Nat) :=
  match decWord14 f off with
  | .error e => .error e
  | .ok (count, off') =>
    match decWords count f off' with
    | .error e => .error e
    | .ok (ws, fin) => .ok (ws.map (fun w : Nat => (w : Int) - 1024), fin)

/-- One turn of the loop of `decode` (R110): the record cell it defines (none for a Marker) and the new
offset. -/
def decField (field : FieldName) (d : FieldDesc) (f : Frame) (off : Nat) : Except DecodeError (Record × Nat) :=
  match d with
  | .marker => (decMarker f off).map (fun o => ([], o))
  | .byte => (decByte f off).map (fun r => ([(field, .byte r.1.toNat)], r.2))
  | .word14 => (decWord14 f off).map (fun r => ([(field, .word r.1)], r.2))
  | .fixedText n => (decText n f off).map (fun r => ([(field, .text (r.1.map (fun c => (c.toNat : Int))))], r.2))
  | .sampleArray14 => (decSamples f off).map (fun r => ([(field, .samples r.1)], r.2))

/-- The loop of `decode` from an offset on (R110): the record and the final offset, or the first error. -/
def decFields : FieldLayout → Frame → Nat → Except DecodeError (Record × Nat)
  | [], _, off => .ok ([], off)
  | (field, d) :: l, f, off =>
    match decField field d f off with
    | .error e => .error e
    | .ok (cell, off') =>
      match decFields l f off' with
      | .error e => .error e
      | .ok (r, fin) => .ok (cell ++ r, fin)

/-- `decode(layout, frame)`, R110, with the number of bytes consumed. -/
def decodeLayout (l : FieldLayout) (f : Frame) : Except DecodeError (Record × Nat) := decFields l f 0

/-! ### Encode -/

/-- The two bytes of a Word14, most significant seven bits first (30_encoding.md R85). -/
def wordBytes (v : Nat) : Frame := [BitVec.ofNat 8 (v >>> 7), BitVec.ofNat 8 (v &&& 0x7F)]

/-- Text bytes zero-padded on the right to n (R86). -/
def padText (n : Nat) (cs : Frame) : Frame := cs ++ List.replicate (n - cs.length) 0

/-- ENC_MARKER, R117. -/
def encMarker (cfg : Config) (i : Nat) : Frame := if i = 0 then [cfg.startMarker] else [cfg.endMarker]

/-- ENC_BYTE, R118. -/
def encByte (v : Int) : Except EncodeStop Frame :=
  if v < 0 ∨ v > 127 then .error .outOfRange else .ok [BitVec.ofInt 8 v]

/-- ENC_WORD14, R119. -/
def encWord14 (v : Int) : Except EncodeStop Frame :=
  if v < 0 ∨ v > 16383 then .error .outOfRange else .ok (wordBytes v.toNat)

/-- ENC_TEXT, R120: cut to n codes, then the kept codes are checked. -/
def encText (n : Nat) (t : List Int) : Except EncodeStop Frame :=
  if (t.take n).any (fun c => decide (c < 1 ∨ c > 127)) then .error .outOfRange
  else .ok (padText n ((t.take n).map (BitVec.ofInt 8)))

/-- The loop of ENC_SAMPLES (R121). -/
def encWords : List Int → Except EncodeStop Frame
  | [] => .ok []
  | s :: vs =>
    match encWord14 (s + 1024) with
    | .error e => .error e
    | .ok b =>
      match encWords vs with
      | .error e => .error e
      | .ok bs => .ok (b ++ bs)

/-- ENC_SAMPLES, R121. -/
def encSamples (vs : List Int) : Except EncodeStop Frame :=
  match encWord14 vs.length with
  | .error e => .error e
  | .ok b =>
    match encWords vs with
    | .error e => .error e
    | .ok bs => .ok (b ++ bs)

/-- The field operation of a descriptor on a value of its kind (R116). -/
def encValue : FieldDesc → Value → Except EncodeStop Frame
  | .byte, .byte v => encByte v
  | .word14, .word v => encWord14 v
  | .fixedText n, .text t => encText n t
  | .sampleArray14, .samples vs => encSamples vs
  | _, _ => .error .illShaped

/-- The loop of `encode` from layout index `i` on (R116). The record's entries are taken in layout order. -/
def encFields (cfg : Config) : Nat → FieldLayout → Record → Except EncodeStop Frame
  | _, [], [] => .ok []
  | _, [], _ :: _ => .error .illShaped
  | i, (field, d) :: l, r =>
    if d = .marker then (encFields cfg (i + 1) l r).map (fun bs => encMarker cfg i ++ bs)
    else match r with
      | [] => .error .illShaped
      | (field', v) :: r' =>
        if field = field' then
          match encValue d v with
          | .error e => .error e
          | .ok b => (encFields cfg (i + 1) l r').map (fun bs => b ++ bs)
        else .error .illShaped

/-- `encode(layout, record)`, R116. That the record fits the layout is its precondition (D39). -/
def encodeLayout (cfg : Config) (l : FieldLayout) (r : Record) : Except EncodeStop Frame :=
  if Record.fits Value.hasKind l r then encFields cfg 0 l r else .error .illShaped

/-- The two Byte fields of the Header that every record begins with (R213). -/
def Config.header (cfg : Config) (k : Kind) : Record :=
  [(.vendor, .byte cfg.vendorId.toNat), (.command, .byte (cfg.cmd k).toNat)]

/-- `tx_encode(cfg, K, p)`, 45_events_and_tx.md R213. -/
def txEncode (cfg : Config) (k : Kind) (p : Record) : Except EncodeStop Frame :=
  encodeLayout cfg (cfg.layout k) (cfg.header k ++ p)

/-! ### From a record to an instruction -/

/-- `x[name]` (00_scope.md R15). -/
def Record.get? : Record → FieldName → Option Value
  | [], _ => none
  | (field, v) :: r, n => if field = n then some v else Record.get? r n

/-- `x[name]` of a Byte field. A decoded record has the cell (R37); the last arm is never reached from one
(log entry 11). -/
def Record.byte (r : Record) (n : FieldName) : Byte :=
  match r.get? n with
  | some (.byte v) => BitVec.ofInt 8 v
  | _ => 0

/-- `x[name]` of a Word14 field. -/
def Record.word (r : Record) (n : FieldName) : Word14 :=
  match r.get? n with
  | some (.word v) => BitVec.ofInt 14 v
  | _ => 0

/-- `x[name]` of a FixedText field. -/
def Record.text (r : Record) (n : FieldName) : List Byte :=
  match r.get? n with
  | some (.text cs) => cs.map (BitVec.ofInt 8)
  | _ => []

/-- `x[name]` of a SampleArray14 field. -/
def Record.sampleList (r : Record) (n : FieldName) : List Int :=
  match r.get? n with
  | some (.samples vs) => vs
  | _ => []

/-- The instruction of a kind with the operands of a payload record (R144, R160, R170 to R173, R188 to R193). -/
def Instr.ofPayload : Kind → Record → Instr
  | .configuration, x => .configuration
      { versionMajor := x.byte .versionMajor, versionMinor := x.byte .versionMinor,
        versionPatch := x.byte .versionPatch, samplingRate := x.byte .samplingRate,
        padCount := x.byte .padCount, sensorCount := x.byte .sensorCount }
  | .type, x => .typeDef x
  | .curve, x => .curveDef { id := x.byte .id, name := x.text .name }
  | .pad, x => .padDef
      { id := x.byte .id, type := x.byte .type, zoneCount := x.byte .zoneCount, name := x.text .name,
        scanTime := x.byte .scanTime, maskTime := x.byte .maskTime, retriggerTime := x.byte .retriggerTime,
        curveId := x.byte .curveId, headSensor := x.byte .headSensor,
        headSensitivity := x.byte .headSensitivity, headThreshold := x.byte .headThreshold,
        headNote := x.byte .headNote, rimSensor := x.byte .rimSensor,
        rimSensitivity := x.byte .rimSensitivity, rimThreshold := x.byte .rimThreshold,
        rimNote := x.byte .rimNote }
  | .ready, x => .ready x
  | .monitorStart, x => .monitorStart (x.byte .padId) (x.byte .channelId) (x.word .size)
  | .monitorData, x =>
      .monitorData (x.byte .padId) (x.byte .channelId) (x.word .offset) (x.sampleList .samples)
  | .monitorEnd, x => .monitorEnd (x.byte .padId) (x.byte .channelId)
  | .scopeStart, x => .scopeStart (x.byte .probeId) (x.word .size)
  | .scopeData, x => .scopeData (x.byte .probeId) (x.word .offset) (x.sampleList .samples)
  | .scopeEnd, x => .scopeEnd (x.byte .probeId)

/-! ### The decoder -/

/-- Why a frame is no instruction: the abnormal outcomes of stages 1 to 3 (R141 to R143). -/
inductive Reject
  | notOurs
  | unknownCommand (command : Byte)
  | decodeFailed (e : DecodeError)
deriving DecidableEq, Repr

/-- Stages 1 to 3 of `rx` (41_dispatch.md R140 to R143), in their order. The payload record is the decoded
record without its two Header cells `vendor` and `command`. -/
def decode (cfg : Config) (f : Frame) : Except Reject Instr :=
  if f.length < 3 ∨ Frame.at f 0 ≠ cfg.startMarker ∨ Frame.at f 1 ≠ cfg.vendorId then .error .notOurs
  else match cfg.kindOf (Frame.at f 2) with
    | none => .error (.unknownCommand (Frame.at f 2))
    | some k =>
      match decodeLayout (cfg.layout k) f with
      | .error e => .error (.decodeFailed e)
      | .ok (r, _) => .ok (Instr.ofPayload k (r.drop 2))

/-! ### The encoder of instructions

Only frames have a bit encoding (30_encoding.md R106). Unlike `txEncode` it also writes a Byte or a text code
with bit 7 set, which the decoder reads verbatim (D9), so that it covers every frame the decoder accepts up to
surplus bytes, marker values and the place of zero codes (40_field_codec.md R123). -/

/-- The kind of a frame instruction; none for the other rows of the table. -/
def Instr.kind : Instr → Option Kind
  | .configuration _ => some .configuration
  | .typeDef _ => some .type
  | .curveDef _ => some .curve
  | .padDef _ => some .pad
  | .ready _ => some .ready
  | .monitorStart _ _ _ => some .monitorStart
  | .monitorData _ _ _ _ => some .monitorData
  | .monitorEnd _ _ => some .monitorEnd
  | .scopeStart _ _ => some .scopeStart
  | .scopeData _ _ _ => some .scopeData
  | .scopeEnd _ => some .scopeEnd
  | .decMarker => none
  | .decByte _ => none
  | .decWord14 _ => none
  | .decText _ _ => none
  | .decSamples _ => none
  | .encMarker _ => none
  | .encByte _ => none
  | .encWord14 _ => none
  | .encText _ _ => none
  | .encSamples _ => none
  | .disconnected => none
  | .connected => none
  | .hwReset => none
  | .txEncode _ _ => none

/-- A byte as a Byte value. -/
def byteValue (b : Byte) : Value := .byte b.toNat

/-- A word as a Word14 value. -/
def wordValue (w : Word14) : Value := .word w.toNat

/-- Codes as a FixedText value. -/
def textValue (cs : List Byte) : Value := .text (cs.map (fun c => (c.toNat : Int)))

/-- The payload record of a frame instruction, in layout order (R88 to R98). -/
def Instr.payload : Instr → Record
  | .configuration r =>
      [(.versionMajor, byteValue r.versionMajor), (.versionMinor, byteValue r.versionMinor),
       (.versionPatch, byteValue r.versionPatch), (.samplingRate, byteValue r.samplingRate),
       (.padCount, byteValue r.padCount), (.sensorCount, byteValue r.sensorCount)]
  | .typeDef p => p
  | .curveDef c => [(.id, byteValue c.id), (.name, textValue c.name)]
  | .padDef p =>
      [(.id, byteValue p.id), (.type, byteValue p.type), (.zoneCount, byteValue p.zoneCount),
       (.name, textValue p.name), (.scanTime, byteValue p.scanTime), (.maskTime, byteValue p.maskTime),
       (.retriggerTime, byteValue p.retriggerTime), (.curveId, byteValue p.curveId),
       (.headSensor, byteValue p.headSensor), (.headSensitivity, byteValue p.headSensitivity),
       (.headThreshold, byteValue p.headThreshold), (.headNote, byteValue p.headNote),
       (.rimSensor, byteValue p.rimSensor), (.rimSensitivity, byteValue p.rimSensitivity),
       (.rimThreshold, byteValue p.rimThreshold), (.rimNote, byteValue p.rimNote)]
  | .ready p => p
  | .monitorStart p c size => [(.padId, byteValue p), (.channelId, byteValue c), (.size, wordValue size)]
  | .monitorData p c o vs =>
      [(.padId, byteValue p), (.channelId, byteValue c), (.offset, wordValue o), (.samples, .samples vs)]
  | .monitorEnd p c => [(.padId, byteValue p), (.channelId, byteValue c)]
  | .scopeStart q size => [(.probeId, byteValue q), (.size, wordValue size)]
  | .scopeData q o vs => [(.probeId, byteValue q), (.offset, wordValue o), (.samples, .samples vs)]
  | .scopeEnd q => [(.probeId, byteValue q)]
  | .decMarker => []
  | .decByte _ => []
  | .decWord14 _ => []
  | .decText _ _ => []
  | .decSamples _ => []
  | .encMarker _ => []
  | .encByte _ => []
  | .encWord14 _ => []
  | .encText _ _ => []
  | .encSamples _ => []
  | .disconnected => []
  | .connected => []
  | .hwReset => []
  | .txEncode _ _ => []

/-- The bytes of a value under its descriptor (R82). -/
def rawValue : FieldDesc → Value → Frame
  | .byte, .byte v => [BitVec.ofInt 8 v]
  | .word14, .word v => wordBytes v.toNat
  | .fixedText n, .text cs => padText n ((cs.take n).map (BitVec.ofInt 8))
  | .sampleArray14, .samples vs => wordBytes vs.length ++ vs.flatMap (fun s => wordBytes (s + 1024).toNat)
  | _, _ => []

/-- The bytes of a record under a layout, from layout index `i` on. -/
def rawFields (cfg : Config) : Nat → FieldLayout → Record → Frame
  | _, [], _ => []
  | i, (_, d) :: l, r =>
    if d = .marker then encMarker cfg i ++ rawFields cfg (i + 1) l r
    else match r with
      | [] => []
      | (_, v) :: r' => rawValue d v ++ rawFields cfg (i + 1) l r'

/-- The frame of a well-formed frame instruction; none for the rows that have no bit encoding. -/
def encode (cfg : Config) (i : Instr) : Option Frame :=
  i.kind.map (fun k => rawFields cfg 0 (cfg.layout k) (cfg.header k ++ i.payload))

/-! ### Words of the opcode table -/

/-- `n` bytes of a number, the most significant first: the table's words are read as
f[0]·65536 + f[1]·256 + f[2] (30_encoding.md R100, R106). -/
def bytesOfWord : Nat → Nat → Frame
  | 0, _ => []
  | n + 1, w => BitVec.ofNat 8 (w >>> (8 * n)) :: bytesOfWord n w

/-- The bytes of a table word as the transport delivers them: the word's bytes, then 29 zero bytes, which
completes the longest payload a frame of zeros can have (PAD, 32 bytes; a DATA frame of zeros has L = 0).
Surplus bytes are never read (20_memory.md R65). -/
def tableFrame (nbits w : Nat) : Frame := bytesOfWord (nbits / 8) w ++ List.replicate 29 0

/-- The instruction the decoder reads from a table word at the reference configuration (R106). -/
def decodeTableWord (nbits w : Nat) : Option Instr :=
  match decode Config.reference (tableFrame nbits w) with
  | .ok i => some i
  | .error _ => none

end Sys2Proof
end

