-- ==== Sys2Proof/Machine/State.lean ====
section
/-! DEFINITION. The state (10_state.md), the outcomes of a step, and the reset state. -/

namespace Sys2Proof.Machine

open Sys2Proof

/-- GATE, an enumeration (10_state.md R31, D37). -/
inductive Gate
  | unknown
  | matched
  | mismatched
deriving DecidableEq, Repr

/-- The state of a reassembler (R35). -/
inductive StreamStatus
  | idle
  | collecting
deriving DecidableEq, Repr

/-- A stream record (R35). `declaredSize` and `cursor` are u16 holding 0..16383 and a sample is an i16
holding −1024..15359: invariants I1 to I5 of R36, so that integers serve (R13, R124; log entry 10). -/
structure StreamRec where
  st : StreamStatus
  declaredSize : Nat
  cursor : Nat
  truncated : Bool
  samples : List Int
deriving DecidableEq, Repr

/-- The reset record IDLE (R43), which is what a key without an entry reads as (R34). -/
def StreamRec.idle : StreamRec :=
  { st := .idle, declaredSize := 0, cursor := 0, truncated := false, samples := [] }

/-- The stream table STREAMS, the block's sample memory (R34, R40 c): a finite list in canonical form. -/
abbrev Memory := List (ChannelKey × StreamRec)

/-- The place of a key in the canonical order: monitor keys by padId then channelId, then scope keys. -/
def keyIndex : ChannelKey → Nat
  | .monitor p c => p.toNat * 256 + c.toNat
  | .scope q => 65536 + q.toNat

/-- The canonical form of the stream table: keys strictly rising, no entry equal to what an unlisted key
reads as. -/
abbrev Memory.wf (m : Memory) : Prop :=
  m.Pairwise (fun a b => keyIndex a.1 < keyIndex b.1) ∧ ∀ e ∈ m, e.2 ≠ StreamRec.idle

/-- The error a field operation raised (40_field_codec.md R110, R116). -/
inductive CodecError
  | truncated (off : Nat)
  | invalidEncoding (off : Nat)
  | outOfRange
deriving DecidableEq, Repr

/-- The transient storage of one decode or encode: the RX frame in hand, the decode cursor, the record under
construction, the TX frame under construction (10_state.md R37, R38, R40), and the error raised, if any. No
value of it outlives a step (R38); see log entry 4. -/
structure Codec where
  rx : Frame
  off : Nat
  cells : Record
  tx : Frame
  err : Option CodecError
deriving DecidableEq, Repr

/-- The transient storage between steps. -/
def Codec.idle : Codec := { rx := [], off := 0, cells := [], tx := [], err := none }

/-- What the outside presents: the transport's four kinds of event (R45) and the transmit client's request
(45_events_and_tx.md R213). -/
inductive Input
  | frameIn (f : Frame)
  | disconnected
  | connected
  | hwReset
  | txEncode (kind : Kind) (payload : Record)
deriving DecidableEq, Repr

/-- The seven consumer events (R44). The descriptor of `onType` is the configured layout's payload record
(43_definition_commands.md R170). -/
inductive ConsumerEvent
  | onConfiguration (r : ConfigRecord)
  | onType (payload : Record)
  | onCurve (c : CurveDescriptor)
  | onPad (p : PadProperties)
  | onReady
  | onStreamComplete (k : ChannelKey) (samples : List Int)
  | onVersionMismatch (localVersion remoteVersion : VersionTriple)
deriving DecidableEq, Repr

/-- The closed list of verdicts with the information each records (60_exceptions.md R231). -/
inductive Verdict
  | configMatched
  | delivered
  | streamStarted
  | streamRestarted
  | streamAppended
  | streamComplete
  | cleared
  | noOp
  | resetDone
  | notOurs
  | unknownCommand (command : Byte)
  | decodeTruncated (off : Nat)
  | decodeInvalidEncoding (off : Nat)
  | gated
  | configIgnored
  | versionMismatch (localVersion remoteVersion : VersionTriple)
  | streamNotCollecting
  | streamEndIdle
  | streamOffsetMismatch (offset cursor : Nat)
  | streamOverflow
  | streamPoisoned
  | streamIncomplete
  | encodeOutOfRange
deriving DecidableEq, Repr

/-- What TX_ENCODE answers to the transmit client: a complete frame, or the refused encode of code 80 and no
byte (45_events_and_tx.md R213, R216). -/
inductive TxResult
  | frame (bytes : Frame)
  | refused (v : Verdict)
deriving DecidableEq, Repr

/-- The machine's state. The spec's state record S is `gate`, `activeCfg`, `streams` (10_state.md R30). `codec`
is the storage that is transient within a step. `cfg` is the parameter of the spec's step function: no step
writes it. `inbox` is what the outside has still to present; `events`, `verdict` and `txOut` are what the steps
so far answered (log entries 1 to 4). -/
structure State where
  cfg : Config
  gate : Gate
  activeCfg : Option ConfigRecord
  streams : Memory
  codec : Codec
  inbox : List Input
  events : List ConsumerEvent
  verdict : Option Verdict
  txOut : List TxResult
deriving DecidableEq, Repr

/-- Why the machine stops. -/
inductive Fault
  /-- Raised by `step` alone, on an input under a configuration that is not admitted: "a construction-time fatal
  error", such a layout "must never reach runtime decoding in a correct build" (60_exceptions.md R245). Safe: the
  block cannot be built so. -/
  | fatalConfiguration
deriving DecidableEq, Repr

/-- Why an instruction has no meaning. -/
inductive Refusal
  /-- Raised by the arm of `exec` of an instruction that has no meaning yet; no arm raises it. Safe. -/
  | notModelled (mnemonic : String)
  /-- Raised by TX_ENCODE on a record that does not fit its layout, the precondition of 40_field_codec.md R116
  ("an ill-shaped record has no meaning", D39). Safe. -/
  | illShapedRecord
deriving DecidableEq, Repr

/-- The state S0 of 10_state.md R43, with nothing presented, nothing answered, the transient storage empty, and
the reference configuration (log entries 5, 6). -/
def State.reset : State :=
  { cfg := Config.reference
    gate := .unknown
    activeCfg := none
    streams := []
    codec := Codec.idle
    inbox := []
    events := []
    verdict := none
    txOut := [] }

end Sys2Proof.Machine
end

