-- ==== Sys2Proof/Machine/Ops.lean ====
section
/-! DEFINITION. The operations that meanings share: reading and writing the stream table, emitting an event,
concluding with a verdict (the whole of taking an abnormal outcome, 60_exceptions.md R249), the three stream
operations, `clear_all`, the transient storage of the codec, and fetching the next input. -/

namespace Sys2Proof.Machine

open Sys2Proof

/-! ### The stream table -/

/-- `S.streams(k)` (10_state.md R34): a key with no entry reads as IDLE. -/
def Memory.read : Memory → ChannelKey → StreamRec
  | [], _ => StreamRec.idle
  | (k', r) :: m, k => if k' = k then r else Memory.read m k

/-- Put a record before the first greater key. -/
def Memory.insert (k : ChannelKey) (r : StreamRec) : Memory → Memory
  | [] => [(k, r)]
  | e :: m => if keyIndex k < keyIndex e.1 then (k, r) :: e :: m else e :: Memory.insert k r m

/-- `streams(k) := r`: the key's entry goes, and the new record is listed unless it is IDLE. -/
def Memory.write (m : Memory) (k : ChannelKey) (r : StreamRec) : Memory :=
  let rest := m.filter (fun e => e.1 != k)
  if r = StreamRec.idle then rest else Memory.insert k r rest

/-- The record of a key. -/
def State.stream (s : State) (k : ChannelKey) : StreamRec := Memory.read s.streams k

/-- `S with streams(k) := r`. -/
def State.setStream (s : State) (k : ChannelKey) (r : StreamRec) : State :=
  { s with streams := Memory.write s.streams k r }

/-! ### Outcomes -/

/-- `emit e` (00_scope.md R15). -/
def State.emit (s : State) (e : ConsumerEvent) : State := { s with events := s.events ++ [e] }

/-- End a step with a verdict. This is also all there is to taking an abnormal outcome: it "saves nothing and
transfers control nowhere" (60_exceptions.md R249); and there is no return from one (R250). -/
def State.conclude (s : State) (v : Verdict) : State := { s with verdict := some v }

/-- The verdict of a frame that stages 1 to 3 drop (41_dispatch.md R141 to R143). -/
def Reject.verdict : Reject → Verdict
  | .notOurs => .notOurs
  | .unknownCommand c => .unknownCommand c
  | .decodeFailed (.truncated off) => .decodeTruncated off
  | .decodeFailed (.invalidEncoding off) => .decodeInvalidEncoding off

/-- Stage 4 (41_dispatch.md R144, 42_version_gate.md R164): a handler runs if and only if the gate is Matched;
otherwise the frame is dropped. -/
def gated (handler : State → State) (s : State) : Host.Outcome State Fault Refusal :=
  if s.gate = .matched then .next (handler s) else .next (s.conclude .gated)

/-! ### The stream operations (44_stream_commands.md) -/

/-- `stream_start(k, size)`, R182. -/
def streamStart (k : ChannelKey) (size : Nat) (s : State) : State :=
  let v : Verdict := if (s.stream k).st = .collecting then .streamRestarted else .streamStarted
  (s.setStream k { st := .collecting, declaredSize := size, cursor := 0, truncated := false, samples := [] }).conclude v

/-- `stream_data(k, offset, vs)`, R183, with the checks in its order (R186, R187). -/
def streamData (k : ChannelKey) (offset : Nat) (vs : List Int) (s : State) : State :=
  let r := s.stream k
  if r.st ≠ .collecting then s.conclude .streamNotCollecting
  else if r.truncated then s.conclude .streamPoisoned
  else if s.cfg.offsetPolicy = .rejectOnMismatch ∧ offset ≠ r.cursor then
    s.conclude (.streamOffsetMismatch offset r.cursor)
  else if r.cursor + vs.length > r.declaredSize then
    (s.setStream k { r with truncated := true }).conclude .streamOverflow
  else
    (s.setStream k { r with samples := r.samples ++ vs, cursor := r.cursor + vs.length }).conclude .streamAppended

/-- `stream_end(k)`, R184. -/
def streamEnd (k : ChannelKey) (s : State) : State :=
  let r := s.stream k
  if r.st ≠ .collecting then s.conclude .streamEndIdle
  else if r.truncated = false ∧ r.cursor = r.declaredSize then
    ((s.setStream k StreamRec.idle).emit (.onStreamComplete k r.samples)).conclude .streamComplete
  else (s.setStream k StreamRec.idle).conclude .streamIncomplete

/-- `clear_all`, R185. -/
def clearAll (s : State) : State := { s with streams := [] }

/-- S := S0 (10_state.md R43; 45_events_and_tx.md R210, R212): the gate, the active configuration and every
stream record. -/
def resetCore (s : State) : State := { clearAll s with gate := .unknown, activeCfg := none }

/-! ### The transient storage of the codec -/

/-- The storage at the start of a decode of `f` (10_state.md R38: the cursor "starts at 0 for every decode"). -/
def State.openRx (s : State) (f : Frame) : State := { s with codec := { Codec.idle with rx := f } }

/-- The storage at the start of an encode. -/
def State.openTx (s : State) : State := { s with codec := Codec.idle }

/-- A decode error as the codec records it. -/
def CodecError.ofDecode : DecodeError → CodecError
  | .truncated off => .truncated off
  | .invalidEncoding off => .invalidEncoding off

/-- The end of a DEC operation: the cell it defines, if any, joins the record and the cursor advances; or the
error is raised, and record and cursor stay (40_field_codec.md R110). -/
def State.afterDec (s : State) : Except DecodeError (Record × Nat) → State
  | .ok (cell, off) => { s with codec := { s.codec with cells := s.codec.cells ++ cell, off := off } }
  | .error e => { s with codec := { s.codec with err := some (CodecError.ofDecode e) } }

/-- The end of an ENC operation: the bytes are appended; or the error is raised and no byte is produced
(R116). -/
def State.afterEnc (s : State) : Except EncodeStop Frame → State
  | .ok bs => { s with codec := { s.codec with tx := s.codec.tx ++ bs } }
  | .error _ => { s with codec := { s.codec with err := some .outOfRange } }

/-! ### Fetching -/

/-- The instruction that an input asks for, or why there is none (41_dispatch.md R140). -/
def Input.fetch (cfg : Config) : Input → Except Reject Instr
  | .frameIn f => decode cfg f
  | .disconnected => .ok .disconnected
  | .connected => .ok .connected
  | .hwReset => .ok .hwReset
  | .txEncode k p => .ok (.txEncode k p)

/-- The state in which an input is handled: it has been taken from the inbox, and the transient storage is
empty, since no value of it outlives a step (10_state.md R38). -/
def State.take (s : State) (rest : List Input) : State := { s with inbox := rest, codec := Codec.idle }

end Sys2Proof.Machine
end

