-- ==== Sys2Proof/Machine/Operands.lean ====
section
/-! DEFINITION. Operand forms of the frame commands (the record's cells `x[name]` are read in
Sys2Proof/Decode.lean, `Record.byte` and its companions). -/

namespace Sys2Proof.Machine

open Sys2Proof

/-- The key of a monitor frame (44_stream_commands.md R180). -/
def monitorKey (padId channelId : Byte) : ChannelKey := .monitor padId channelId

/-- The key of an oscilloscope frame (R180). -/
def scopeKey (probeId : Byte) : ChannelKey := .scope probeId

/-- The remote triple of a CONFIGURATION frame (42_version_gate.md R160). -/
def remoteVersion (r : ConfigRecord) : VersionTriple :=
  { major := r.versionMajor, minor := r.versionMinor, patch := r.versionPatch }

end Sys2Proof.Machine
end

