-- ==== Sys2Proof/Machine/Flags.lean ====
section
/-! DEFINITION. The two flags (10_state.md R39) and the codes and classes of the verdicts (60_exceptions.md
R230, R231). -/

namespace Sys2Proof.Machine

open Sys2Proof

/-- `matched`: the predicate S.gate = Matched (R39). -/
def State.matched (s : State) : Bool := decide (s.gate = .matched)

/-- `truncated` of a key (R39). -/
def State.truncated (s : State) (k : ChannelKey) : Bool := (s.stream k).truncated

/-- The numeric code of a verdict (R231). -/
def Verdict.code : Verdict → Nat
  | .configMatched => 0
  | .delivered => 1
  | .streamStarted => 2
  | .streamRestarted => 3
  | .streamAppended => 4
  | .streamComplete => 5
  | .cleared => 6
  | .noOp => 7
  | .resetDone => 8
  | .notOurs => 16
  | .unknownCommand _ => 17
  | .decodeTruncated _ => 32
  | .decodeInvalidEncoding _ => 33
  | .gated => 48
  | .configIgnored => 49
  | .versionMismatch _ _ => 50
  | .streamNotCollecting => 64
  | .streamEndIdle => 65
  | .streamOffsetMismatch _ _ => 66
  | .streamOverflow => 67
  | .streamPoisoned => 68
  | .streamIncomplete => 69
  | .encodeOutOfRange => 80

/-- The six classes of verdicts (R230). -/
inductive VerdictClass
  | normal | foreign | malformed | denied | streamFault | refusedEncode
deriving DecidableEq, Repr

/-- The class of a verdict, the table's third column (R231). -/
def Verdict.severity (v : Verdict) : VerdictClass :=
  if v.code < 16 then .normal
  else if v.code < 32 then .foreign
  else if v.code < 48 then .malformed
  else if v.code < 64 then .denied
  else if v.code < 80 then .streamFault
  else .refusedEncode

end Sys2Proof.Machine
end

