-- ==== Sys2Proof/Machine/Definitions.lean ====
section
/-! DEFINITION. The definition commands TYPE, CURVE, PAD and READY (43_definition_commands.md). -/

namespace Sys2Proof.Machine

open Sys2Proof

/-- A direct consumer update: one event, no change of S (R174). -/
def deliver (e : ConsumerEvent) (s : State) : State := (s.emit e).conclude .delivered

/-- TYPE, R170. -/
def execTypeDef (payload : Record) (s : State) : Host.Outcome State Fault Refusal :=
  gated (deliver (.onType payload)) s

/-- CURVE, R171. -/
def execCurveDef (c : CurveDescriptor) (s : State) : Host.Outcome State Fault Refusal :=
  gated (deliver (.onCurve c)) s

/-- PAD, R172. -/
def execPadDef (p : PadProperties) (s : State) : Host.Outcome State Fault Refusal :=
  gated (deliver (.onPad p)) s

/-- READY, R173: the payload a configured layout might have is not delivered (R92, D7). -/
def execReady (_payload : Record) (s : State) : Host.Outcome State Fault Refusal :=
  gated (deliver .onReady) s

end Sys2Proof.Machine
end

