-- ==== Sys2Proof/Machine/FieldOps.lean ====
section
/-! DEFINITION. The ten field operations (40_field_codec.md R111 to R115, R117 to R121) as instructions over the
transient storage of the codec. They read and write nothing else: not S, not a flag. The pure operations are
those of Sys2Proof/Decode.lean, which `decode` and `encode` run. -/

namespace Sys2Proof.Machine

open Sys2Proof

/-- DEC_MARKER, R111: no cell. -/
def execDecMarker (s : State) : Host.Outcome State Fault Refusal :=
  .next (s.afterDec ((decMarker s.codec.rx s.codec.off).map (fun off => ([], off))))

/-- DEC_BYTE, R112. -/
def execDecByte (field : FieldName) (s : State) : Host.Outcome State Fault Refusal :=
  .next (s.afterDec ((decByte s.codec.rx s.codec.off).map (fun r => ([(field, .byte r.1.toNat)], r.2))))

/-- DEC_WORD14, R113. -/
def execDecWord14 (field : FieldName) (s : State) : Host.Outcome State Fault Refusal :=
  .next (s.afterDec ((decWord14 s.codec.rx s.codec.off).map (fun r => ([(field, .word r.1)], r.2))))

/-- DEC_TEXT, R114. -/
def execDecText (field : FieldName) (n : Nat) (s : State) : Host.Outcome State Fault Refusal :=
  .next (s.afterDec ((decText n s.codec.rx s.codec.off).map
    (fun r => ([(field, .text (r.1.map (fun c => (c.toNat : Int))))], r.2))))

/-- DEC_SAMPLES, R115. -/
def execDecSamples (field : FieldName) (s : State) : Host.Outcome State Fault Refusal :=
  .next (s.afterDec ((decSamples s.codec.rx s.codec.off).map (fun r => ([(field, .samples r.1)], r.2))))

/-- ENC_MARKER, R117. -/
def execEncMarker (index : Nat) (s : State) : Host.Outcome State Fault Refusal :=
  .next (s.afterEnc (.ok (encMarker s.cfg index)))

/-- ENC_BYTE, R118. -/
def execEncByte (v : Int) (s : State) : Host.Outcome State Fault Refusal :=
  .next (s.afterEnc (encByte v))

/-- ENC_WORD14, R119. -/
def execEncWord14 (v : Int) (s : State) : Host.Outcome State Fault Refusal :=
  .next (s.afterEnc (encWord14 v))

/-- ENC_TEXT, R120. -/
def execEncText (n : Nat) (codes : List Int) (s : State) : Host.Outcome State Fault Refusal :=
  .next (s.afterEnc (encText n codes))

/-- ENC_SAMPLES, R121. -/
def execEncSamples (vs : List Int) (s : State) : Host.Outcome State Fault Refusal :=
  .next (s.afterEnc (encSamples vs))

end Sys2Proof.Machine
end

