-- ==== Sys2Proof/Machine/Gate.lean ====
section
/-! DEFINITION. CONFIGURATION (42_version_gate.md). -/

namespace Sys2Proof.Machine

open Sys2Proof

/-- CONFIGURATION, R160: not gated; ignored unless the gate is Unknown (R163). -/
def execConfiguration (r : ConfigRecord) (s : State) : Host.Outcome State Fault Refusal :=
  let remote := remoteVersion r
  let mine := s.cfg.localVersion
  if s.gate ≠ .unknown then .next (s.conclude .configIgnored)
  else if remote = mine then
    .next ((({ s with gate := .matched, activeCfg := some r } : State).emit (.onConfiguration r)).conclude .configMatched)
  else
    .next ((({ s with gate := .mismatched } : State).emit (.onVersionMismatch mine remote)).conclude
      (.versionMismatch mine remote))

end Sys2Proof.Machine
end

