-- ==== Sys2Proof/Machine/Lifecycle.lean ====
section
/-! DEFINITION. The operations that are not frames (45_events_and_tx.md R210 to R213). -/

namespace Sys2Proof.Machine

open Sys2Proof

/-- DISCONNECTED, R210. -/
def execDisconnected (s : State) : Host.Outcome State Fault Refusal :=
  .next ((resetCore s).conclude .cleared)

/-- CONNECTED, R211. -/
def execConnected (s : State) : Host.Outcome State Fault Refusal :=
  .next (s.conclude .noOp)

/-- HWRESET, R212. -/
def execHwReset (s : State) : Host.Outcome State Fault Refusal :=
  .next ((resetCore s).conclude .resetDone)

/-- TX_ENCODE, R213: it reads the configuration alone and writes what the transmit client receives alone (R215);
a refused encode produces no byte (R216). Its result is no verdict of a step (60_exceptions.md R231). -/
def execTxEncode (kind : Kind) (payload : Record) (s : State) : Host.Outcome State Fault Refusal :=
  match txEncode s.cfg kind payload with
  | .ok f => .next { s with txOut := s.txOut ++ [.frame f] }
  | .error .outOfRange => .next { s with txOut := s.txOut ++ [.refused .encodeOutOfRange] }
  | .error .illShaped => .refused .illShapedRecord

end Sys2Proof.Machine
end

