-- ==== Sys2Proof/Machine/Streams.lean ====
section
/-! DEFINITION. The stream commands (44_stream_commands.md R188 to R193). -/

namespace Sys2Proof.Machine

open Sys2Proof

/-- MONITOR_START, R188. -/
def execMonitorStart (padId channelId : Byte) (size : Word14) (s : State) : Host.Outcome State Fault Refusal :=
  gated (streamStart (monitorKey padId channelId) size.toNat) s

/-- MONITOR_DATA, R189. -/
def execMonitorData (padId channelId : Byte) (offset : Word14) (samples : List Int) (s : State) :
    Host.Outcome State Fault Refusal :=
  gated (streamData (monitorKey padId channelId) offset.toNat samples) s

/-- MONITOR_END, R190. -/
def execMonitorEnd (padId channelId : Byte) (s : State) : Host.Outcome State Fault Refusal :=
  gated (streamEnd (monitorKey padId channelId)) s

/-- SCOPE_START, R191. -/
def execScopeStart (probeId : Byte) (size : Word14) (s : State) : Host.Outcome State Fault Refusal :=
  gated (streamStart (scopeKey probeId) size.toNat) s

/-- SCOPE_DATA, R192. -/
def execScopeData (probeId : Byte) (offset : Word14) (samples : List Int) (s : State) :
    Host.Outcome State Fault Refusal :=
  gated (streamData (scopeKey probeId) offset.toNat samples) s

/-- SCOPE_END, R193. -/
def execScopeEnd (probeId : Byte) (s : State) : Host.Outcome State Fault Refusal :=
  gated (streamEnd (scopeKey probeId)) s

end Sys2Proof.Machine
end

