-- ==== Sys2Proof/Machine/Dispatch.lean ====
section
/-! DEFINITION. One arm per constructor of Instr: the handler table of 41_dispatch.md R144, the field operations
and the events. -/

namespace Sys2Proof.Machine
open Sys2Proof

def exec (i : Instr) (s : State) : Host.Outcome State Fault Refusal :=
  match i with
  | .configuration r => Sys2Proof.Machine.execConfiguration r s
  | .typeDef p => Sys2Proof.Machine.execTypeDef p s
  | .curveDef c => Sys2Proof.Machine.execCurveDef c s
  | .padDef p => Sys2Proof.Machine.execPadDef p s
  | .ready p => Sys2Proof.Machine.execReady p s
  | .monitorStart p c size => Sys2Proof.Machine.execMonitorStart p c size s
  | .monitorData p c o vs => Sys2Proof.Machine.execMonitorData p c o vs s
  | .monitorEnd p c => Sys2Proof.Machine.execMonitorEnd p c s
  | .scopeStart q size => Sys2Proof.Machine.execScopeStart q size s
  | .scopeData q o vs => Sys2Proof.Machine.execScopeData q o vs s
  | .scopeEnd q => Sys2Proof.Machine.execScopeEnd q s
  | .decMarker => Sys2Proof.Machine.execDecMarker s
  | .decByte field => Sys2Proof.Machine.execDecByte field s
  | .decWord14 field => Sys2Proof.Machine.execDecWord14 field s
  | .decText field n => Sys2Proof.Machine.execDecText field n s
  | .decSamples field => Sys2Proof.Machine.execDecSamples field s
  | .encMarker index => Sys2Proof.Machine.execEncMarker index s
  | .encByte v => Sys2Proof.Machine.execEncByte v s
  | .encWord14 v => Sys2Proof.Machine.execEncWord14 v s
  | .encText n codes => Sys2Proof.Machine.execEncText n codes s
  | .encSamples vs => Sys2Proof.Machine.execEncSamples vs s
  | .disconnected => Sys2Proof.Machine.execDisconnected s
  | .connected => Sys2Proof.Machine.execConnected s
  | .hwReset => Sys2Proof.Machine.execHwReset s
  | .txEncode kind payload => Sys2Proof.Machine.execTxEncode kind payload s

end Sys2Proof.Machine
end

