-- ==== Sys2Proof/Machine/Step.lean ====
section
/-! DEFINITION. One step: the next input is fetched and its instruction runs (41_dispatch.md R140). -/

namespace Sys2Proof.Machine

open Sys2Proof

/-- One step. With no input the block is idle and holds its state (R256). A configuration that is not admitted
never reaches run-time decoding: no input runs under it (60_exceptions.md R245). A frame that stages 1 to 3 drop
leaves its verdict and nothing else. -/
def step (s : State) : Host.Outcome State Fault Refusal :=
  match s.inbox with
  | [] => .next s
  | input :: rest =>
    if s.cfg.admitted = false then .fault .fatalConfiguration
    else
      match input.fetch s.cfg with
      | .ok i => exec i (s.take rest)
      | .error e => .next ((s.take rest).conclude (Reject.verdict e))

/-- `s` with the bytes of a table word as the next inbound frame (30_encoding.md R100, R106). -/
def State.withFetchWord (s : State) (nbits w : Nat) : State :=
  { s with inbox := .frameIn (tableFrame nbits w) :: s.inbox }

end Sys2Proof.Machine
end

