-- ==== Sys2Proof/Machine/Sequences.lean ====
section
/-! DEFINITION. Sequences of instructions: a run of instructions one after another, and the field operations
that a layout stands for ("The program of a decode is the layout of the command kind", 20_memory.md R71). -/

namespace Sys2Proof.Machine

open Sys2Proof

/-- The instructions one after another, stopping at the first fault or refusal. -/
def runInstrs : List Instr → State → Host.Outcome State Fault Refusal
  | [], s => .next s
  | i :: is, s =>
    match exec i s with
    | .next t => runInstrs is t
    | .fault r => .fault r
    | .refused r => .refused r

/-- Field operations one after another; "A `raise` inside any field operation ends the loop at once"
(40_field_codec.md R110, R116). -/
def runFieldOps : List Instr → State → Host.Outcome State Fault Refusal
  | [], s => .next s
  | i :: is, s =>
    match exec i s with
    | .next t => if t.codec.err.isSome then .next t else runFieldOps is t
    | .fault r => .fault r
    | .refused r => .refused r

/-- The DEC operation of a field (R110). -/
def decOp (field : FieldName) : FieldDesc → Instr
  | .marker => .decMarker
  | .byte => .decByte field
  | .word14 => .decWord14 field
  | .fixedText n => .decText field n
  | .sampleArray14 => .decSamples field

/-- The DEC operations of a layout, in order (R110). -/
def decProgram (l : FieldLayout) : List Instr := l.map (fun f => decOp f.1 f.2)

/-- The ENC operation of a value under its descriptor (R116); none where the value is not of the descriptor's
kind. -/
def encOp : FieldDesc → Value → Option Instr
  | .byte, .byte v => some (.encByte v)
  | .word14, .word v => some (.encWord14 v)
  | .fixedText n, .text t => some (.encText n t)
  | .sampleArray14, .samples vs => some (.encSamples vs)
  | _, _ => none

/-- The ENC operations of a record under a layout, from layout index `i` on (R116). -/
def encProgram : Nat → FieldLayout → Record → List Instr
  | _, [], _ => []
  | i, (_, d) :: l, r =>
    if d = .marker then .encMarker i :: encProgram (i + 1) l r
    else match r with
      | [] => []
      | (_, v) :: r' => (encOp d v).toList ++ encProgram (i + 1) l r'

end Sys2Proof.Machine
end

