-- ==== Sys2Proof/Safety.lean ====
section
/-! DEFINITION. What holds in every good state: the invariants of 10_state.md R32 and R36. -/

namespace Sys2Proof.Machine

open Sys2Proof

/-- I1 to I5 of R36 for one stream record. -/
structure StreamRec.Good (r : StreamRec) : Prop where
  /-- I1. -/
  cursor_le : r.cursor ≤ r.declaredSize
  /-- I2. -/
  length_eq : r.samples.length = r.cursor
  /-- I3. -/
  size_le : r.declaredSize ≤ 16383
  /-- I4: an Idle record is the reset record. -/
  idle_eq : r.st = .idle → r = StreamRec.idle
  /-- I5. -/
  in_range : ∀ v ∈ r.samples, -1024 ≤ v ∧ v ≤ 15359

/-- The invariants of every reachable state: the stream table is in canonical form, I1 to I6 of R36, the
invariant of R32, and that the active configuration carries the local version (R160). -/
structure State.Good (s : State) : Prop where
  table : Memory.wf s.streams
  records : ∀ k, (s.stream k).Good
  /-- I6. -/
  closed : s.gate ≠ .matched → ∀ k, s.stream k = StreamRec.idle
  /-- R32. -/
  active : s.activeCfg ≠ none ↔ s.gate = .matched
  version : ∀ r, s.activeCfg = some r → remoteVersion r = s.cfg.localVersion

/-- START, DATA and END of a key: the monitor family and the oscilloscope family under one name, so that a claim
covers both. -/
def startOf : ChannelKey → Word14 → Instr
  | .monitor p c, size => .monitorStart p c size
  | .scope q, size => .scopeStart q size

/-- See `startOf`. -/
def dataOf : ChannelKey → Word14 → List Int → Instr
  | .monitor p c, offset, vs => .monitorData p c offset vs
  | .scope q, offset, vs => .scopeData q offset vs

/-- See `startOf`. -/
def endOf : ChannelKey → Instr
  | .monitor p c => .monitorEnd p c
  | .scope q => .scopeEnd q

/-- One of the stream commands of a key. -/
inductive StreamCommand (k : ChannelKey) : Instr → Prop
  | start (size : Word14) : StreamCommand k (startOf k size)
  | data (offset : Word14) (vs : List Int) : StreamCommand k (dataOf k offset vs)
  | finish : StreamCommand k (endOf k)

/-- A whole stream: START, the DATA frames in order, END. -/
def streamOf (k : ChannelKey) (size : Word14) (frames : List (Word14 × List Int)) : List Instr :=
  startOf k size :: (frames.map (fun x => dataOf k x.1 x.2) ++ [endOf k])

/-- The samples of a list of DATA frames, in order. -/
def samplesOf (frames : List (Word14 × List Int)) : List Int := (frames.map Prod.snd).flatten

/-- Two bytes stand at an offset of a frame (20_memory.md R65). -/
abbrev wordPresent (f : Frame) (off : Nat) : Prop := off + 2 ≤ f.length

/-- Both bytes at an offset have their high bit clear (20_memory.md R61). -/
abbrev wordClear (f : Frame) (off : Nat) : Prop := (f.getD off 0).toNat < 128 ∧ (f.getD (off + 1) 0).toNat < 128

/-- The value of the Word14 at an offset (40_field_codec.md R124: 128·m + l). -/
def wordAt (f : Frame) (off : Nat) : Nat := 128 * (f.getD off 0).toNat + (f.getD (off + 1) 0).toNat

end Sys2Proof.Machine
end

