-- ==== Sys2Proof/Certificates/Slice0/Obligations.lean ====
section
/-! DEFINITION. The statements for the provers. Each docstring names the rule of spec/ it rests on. -/

open Sys2Proof Sys2Proof.Machine

/-! ### The field operations as instructions (40_field_codec.md) -/

/-- R111, DEC_MARKER. -/
def Obligations.DecMarkerOnlyAdvances : Prop :=
  ∀ s : State,
    (s.codec.off + 1 ≤ s.codec.rx.length →
      exec .decMarker s = .next { s with codec := { s.codec with off := s.codec.off + 1 } }) ∧
    (s.codec.rx.length < s.codec.off + 1 →
      exec .decMarker s = .next { s with codec := { s.codec with err := some (.truncated s.codec.off) } })

/-- R112, DEC_BYTE. -/
def Obligations.DecByteReadsVerbatim : Prop :=
  ∀ (s : State) (field : FieldName),
    (∀ h : s.codec.off < s.codec.rx.length,
      exec (.decByte field) s = .next { s with codec := { s.codec with
        off := s.codec.off + 1
        cells := s.codec.cells ++ [(field, .byte (s.codec.rx[s.codec.off]'h).toNat)] } }) ∧
    (s.codec.rx.length ≤ s.codec.off →
      exec (.decByte field) s = .next { s with codec := { s.codec with err := some (.truncated s.codec.off) } })

/-- R113, DEC_WORD14: the bounds check comes first, then the high-bit check, then 128·m + l. -/
def Obligations.DecWord14Unpacks : Prop :=
  ∀ (s : State) (field : FieldName),
    (¬ wordPresent s.codec.rx s.codec.off →
      exec (.decWord14 field) s = .next { s with codec := { s.codec with err := some (.truncated s.codec.off) } }) ∧
    (wordPresent s.codec.rx s.codec.off → ¬ wordClear s.codec.rx s.codec.off →
      exec (.decWord14 field) s =
        .next { s with codec := { s.codec with err := some (.invalidEncoding s.codec.off) } }) ∧
    (wordPresent s.codec.rx s.codec.off → wordClear s.codec.rx s.codec.off →
      wordAt s.codec.rx s.codec.off ≤ 16383 ∧
      exec (.decWord14 field) s = .next { s with codec := { s.codec with
        off := s.codec.off + 2
        cells := s.codec.cells ++ [(field, .word (wordAt s.codec.rx s.codec.off))] } })

/-- R114, DEC_TEXT: every zero byte is dropped, wherever it stands, and the cursor advances by n. -/
def Obligations.DecTextDropsEveryZero : Prop :=
  ∀ (s : State) (field : FieldName) (n : Nat),
    (s.codec.off + n ≤ s.codec.rx.length →
      exec (.decText field n) s = .next { s with codec := { s.codec with
        off := s.codec.off + n
        cells := s.codec.cells ++
          [(field, .text ((((s.codec.rx.drop s.codec.off).take n).map (fun b => (b.toNat : Int))).filter
            (fun c => decide (c ≠ 0))))] } }) ∧
    (s.codec.rx.length < s.codec.off + n →
      exec (.decText field n) s = .next { s with codec := { s.codec with err := some (.truncated s.codec.off) } })

/-- R115, DEC_SAMPLES: a length word, then that many words, each less 1024; the first offending word decides the
error and its offset. -/
def Obligations.DecSamplesReadsBiasedWords : Prop :=
  ∀ (s : State) (field : FieldName) (f : Frame) (off : Nat), f = s.codec.rx → off = s.codec.off →
    (¬ wordPresent f off →
      exec (.decSamples field) s = .next { s with codec := { s.codec with err := some (.truncated off) } }) ∧
    (wordPresent f off → ¬ wordClear f off →
      exec (.decSamples field) s = .next { s with codec := { s.codec with err := some (.invalidEncoding off) } }) ∧
    (wordPresent f off → wordClear f off →
      (∀ j, j < wordAt f off →
        (∀ i, i < j → wordPresent f (off + 2 + 2 * i) ∧ wordClear f (off + 2 + 2 * i)) →
        (¬ wordPresent f (off + 2 + 2 * j) →
          exec (.decSamples field) s =
            .next { s with codec := { s.codec with err := some (.truncated (off + 2 + 2 * j)) } }) ∧
        (wordPresent f (off + 2 + 2 * j) → ¬ wordClear f (off + 2 + 2 * j) →
          exec (.decSamples field) s =
            .next { s with codec := { s.codec with err := some (.invalidEncoding (off + 2 + 2 * j)) } })) ∧
      ((∀ i, i < wordAt f off → wordPresent f (off + 2 + 2 * i) ∧ wordClear f (off + 2 + 2 * i)) →
        exec (.decSamples field) s = .next { s with codec := { s.codec with
          off := off + 2 + 2 * wordAt f off
          cells := s.codec.cells ++
            [(field, .samples ((List.range (wordAt f off)).map
              (fun i => (wordAt f (off + 2 + 2 * i) : Int) - 1024)))] } }))

/-- R117, ENC_MARKER. -/
def Obligations.EncMarkerEmitsDelimiter : Prop :=
  ∀ (s : State) (i : Nat),
    exec (.encMarker i) s = .next { s with codec := { s.codec with
      tx := s.codec.tx ++ [if i = 0 then s.cfg.startMarker else s.cfg.endMarker] } }

/-- R118, ENC_BYTE. -/
def Obligations.EncByteMarshalsSevenBits : Prop :=
  ∀ s : State,
    (∀ b : Byte, b.toNat ≤ 127 →
      exec (.encByte b.toNat) s = .next { s with codec := { s.codec with tx := s.codec.tx ++ [b] } }) ∧
    (∀ v : Int, v < 0 ∨ 127 < v →
      exec (.encByte v) s = .next { s with codec := { s.codec with err := some .outOfRange } })

/-- R119, ENC_WORD14. -/
def Obligations.EncWord14Packs : Prop :=
  ∀ s : State,
    (∀ h l : Byte, h.toNat ≤ 127 → l.toNat ≤ 127 →
      exec (.encWord14 (128 * h.toNat + l.toNat : Nat)) s =
        .next { s with codec := { s.codec with tx := s.codec.tx ++ [h, l] } }) ∧
    (∀ v : Int, 0 ≤ v → v ≤ 16383 → ∃ h l : Byte, h.toNat ≤ 127 ∧ l.toNat ≤ 127 ∧
      v = (128 * h.toNat + l.toNat : Nat)) ∧
    (∀ v : Int, v < 0 ∨ 16383 < v →
      exec (.encWord14 v) s = .next { s with codec := { s.codec with err := some .outOfRange } })

/-- R120, ENC_TEXT: the first n codes are kept, checked, and padded with zeros to n bytes. -/
def Obligations.EncTextCutsChecksAndPads : Prop :=
  ∀ (s : State) (n : Nat) (t : List Int),
    ((∀ c ∈ t.take n, 1 ≤ c ∧ c ≤ 127) →
      ∃ bs : Frame, bs.map (fun b => (b.toNat : Int)) = t.take n ++ List.replicate (n - t.length) 0 ∧
        bs.length = n ∧
        exec (.encText n t) s = .next { s with codec := { s.codec with tx := s.codec.tx ++ bs } }) ∧
    ((∃ c ∈ t.take n, c < 1 ∨ 127 < c) →
      exec (.encText n t) s = .next { s with codec := { s.codec with err := some .outOfRange } })

/-- R121, ENC_SAMPLES: a length word, then each sample plus 1024 as a Word14. -/
def Obligations.EncSamplesWritesBiasedWords : Prop :=
  ∀ (s : State) (vs : List Int),
    (vs.length ≤ 16383 → (∀ v ∈ vs, -1024 ≤ v ∧ v ≤ 15359) →
      ∃ bs : Frame, bs.length = 2 + 2 * vs.length ∧
        wordClear bs 0 ∧ wordAt bs 0 = vs.length ∧
        (∀ (i : Nat) (h : i < vs.length), wordClear bs (2 + 2 * i) ∧ (wordAt bs (2 + 2 * i) : Int) = vs[i]'h + 1024) ∧
        exec (.encSamples vs) s = .next { s with codec := { s.codec with tx := s.codec.tx ++ bs } }) ∧
    (16383 < vs.length ∨ (∃ v ∈ vs, v < -1024 ∨ 15359 < v) →
      exec (.encSamples vs) s = .next { s with codec := { s.codec with err := some .outOfRange } })

/-- R126, purity: a field operation reads the configuration and the transient storage alone and writes the
storage alone; two states that agree on these two give the same storage. -/
def Obligations.FieldOperationsReadAndWriteOnlyTheCodec : Prop :=
  ∀ (s s' : State) (i : Instr), s.cfg = s'.cfg → s.codec = s'.codec →
    ((∃ field d, i = decOp field d) ∨ (∃ n, i = .encMarker n) ∨ (∃ d v, encOp d v = some i)) →
    ∃ c, exec i s = .next { s with codec := c } ∧ exec i s' = .next { s' with codec := c }

/-- R110: running the DEC operations of a layout one after another, from a frame at offset 0, is `decode`. -/
def Obligations.DecodeIsItsFieldProgram : Prop :=
  ∀ (s : State) (l : FieldLayout) (f : Frame),
    ∃ t, runFieldOps (decProgram l) (s.openRx f) = .next t ∧ t = { s with codec := t.codec } ∧
      (∀ r off, decodeLayout l f = .ok (r, off) →
        t.codec = { rx := f, off := off, cells := r, tx := [], err := none }) ∧
      (∀ e, decodeLayout l f = .error e → t.codec.err = some (CodecError.ofDecode e))

/-- R116: running the ENC operations of a record under its layout one after another is `encode`. -/
def Obligations.EncodeIsItsFieldProgram : Prop :=
  ∀ (s : State) (l : FieldLayout) (r : Record), Record.fits Value.hasKind l r = true →
    ∃ t, runFieldOps (encProgram 0 l r) s.openTx = .next t ∧ t = { s with codec := t.codec } ∧
      ((∃ f, encodeLayout s.cfg l r = .ok f ∧ t.codec = { Codec.idle with tx := f }) ∨
       (encodeLayout s.cfg l r = .error .outOfRange ∧ t.codec.err = some .outOfRange))

/-! ### The laws of the codec (40_field_codec.md section 3) -/

/-- R122: encoding a record of the domain D succeeds and decoding gives it back, under every layout. -/
def Obligations.EncodeThenDecodeIsIdentity : Prop :=
  ∀ (cfg : Config) (l : FieldLayout) (r : Record), Record.fits Value.inDomain l r = true →
    ∃ f, encodeLayout cfg l r = .ok f ∧ decodeLayout l f = .ok (r, f.length)

/-- R123: "It does hold when f is itself the output of `encode`": what was encoded, decoded and encoded again is
the same frame. -/
def Obligations.ReencodingAnEncodedFrameIsIdentity : Prop :=
  ∀ (cfg : Config) (l : FieldLayout) (r : Record) (f : Frame), encodeLayout cfg l r = .ok f →
    ∃ r', decodeLayout l f = .ok (r', f.length) ∧ encodeLayout cfg l r' = .ok f

/-- R273: surplus bytes are never read, the end Marker's value is never checked, and a frame cut one byte short
is Truncated. -/
def Obligations.EndMarkerAndSurplusAreUnchecked : Prop :=
  ∀ (l : FieldLayout) (f : Frame) (r : Record), l.wf = true → decodeLayout l f = .ok (r, f.length) →
    (∀ g, decodeLayout l (f ++ g) = .ok (r, f.length)) ∧
    (∀ b, decodeLayout l (f.dropLast ++ [b]) = .ok (r, f.length)) ∧
    decodeLayout l f.dropLast = .error (.truncated (f.length - 1))

/-- R65, R126: the record depends on the bytes consumed alone, and every shorter prefix is Truncated. -/
def Obligations.DecodeDependsOnItsPrefixOnly : Prop :=
  ∀ (l : FieldLayout) (f : Frame) (r : Record) (off : Nat), decodeLayout l f = .ok (r, off) →
    off ≤ f.length ∧ decodeLayout l (f.take off) = .ok (r, off) ∧
    ∀ n, n < off → ∃ o, decodeLayout l (f.take n) = .error (.truncated o)

/-- R61, R83: the first byte of an encoded frame is the start Marker, the last the end Marker, and every byte
between them is 0..127. -/
def Obligations.EncodedFramesAreSevenBitBetweenMarkers : Prop :=
  ∀ (cfg : Config) (l : FieldLayout) (r : Record) (f : Frame), l.wf = true → encodeLayout cfg l r = .ok f →
    ∃ body, f = cfg.startMarker :: (body ++ [cfg.endMarker]) ∧ ∀ b ∈ body, b.toNat ≤ 127

/-- R64, R102: the length of an encoded frame of each kind whose layout the source fixes. -/
def Obligations.EncodedFrameLengths : Prop :=
  ∀ (cfg : Config) (p : Record) (f : Frame),
    (txEncode cfg .configuration p = .ok f → f.length = 10) ∧
    (txEncode cfg .curve p = .ok f → f.length = 14) ∧
    (txEncode cfg .pad p = .ok f → f.length = 32) ∧
    (txEncode cfg .monitorStart p = .ok f → f.length = 8) ∧
    (txEncode cfg .monitorData p = .ok f → f.length = 10 + 2 * (p.sampleList .samples).length) ∧
    (txEncode cfg .monitorEnd p = .ok f → f.length = 6) ∧
    (txEncode cfg .scopeStart p = .ok f → f.length = 7) ∧
    (txEncode cfg .scopeData p = .ok f → f.length = 9 + 2 * (p.sampleList .samples).length) ∧
    (txEncode cfg .scopeEnd p = .ok f → f.length = 5)

/-! ### Instructions and frames (30_encoding.md) -/

/-- Decode and encode agree: every well-formed frame instruction, with every operand at every value the decoder
reads, is what its frame decodes to. The instruction encoder `encode` is the model's choice (log entry 18) and no
operation of the block: it writes a Byte or a text code above 127 too, which the spec's own encode refuses (R118,
R120, R123). -/
def Obligations.DecodeOfEncodeIsTheInstruction : Prop :=
  ∀ (cfg : Config) (i : Instr), cfg.admitted = true → i.wf cfg = true → i.kind ≠ none →
    ∃ f, encode cfg i = some f ∧ decode cfg f = .ok i

/-- What the decoder reads is a well-formed frame instruction (R17: the ranges of decoded values). -/
def Obligations.DecodedInstructionsAreWellFormed : Prop :=
  ∀ (cfg : Config) (f : Frame) (i : Instr), cfg.admitted = true → decode cfg f = .ok i →
    i.wf cfg = true ∧ i.kind ≠ none

/-- R100: the Header alone selects the kind. -/
def Obligations.HeaderSelectsTheKind : Prop :=
  ∀ (cfg : Config) (f : Frame) (i : Instr) (k : Kind), cfg.admitted = true → decode cfg f = .ok i →
    (i.kind = some k ↔
      3 ≤ f.length ∧ f.getD 0 0 = cfg.startMarker ∧ f.getD 1 0 = cfg.vendorId ∧ f.getD 2 0 = cfg.cmd k)

/-- Words written out from the layouts at the reference configuration (95_test_vectors.md S1, V-F). -/
def Obligations.WrittenWordsDecode : Prop :=
  decode Config.reference [0xF0, 0x66, 0x02, 0x00, 0x01, 0x01, 0x2C, 0x08, 0x10, 0xF7] =
      .ok (.configuration ⟨0, 1, 1, 44, 8, 16⟩) ∧
  decode Config.reference [0xF0, 0x66, 0x04, 0x02, 0x4C, 0x69, 0x6E, 0x65, 0x61, 0x72, 0, 0, 0, 0xF7] =
      .ok (.curveDef ⟨2, [0x4C, 0x69, 0x6E, 0x65, 0x61, 0x72]⟩) ∧
  decode Config.reference [0xF0, 0x66, 0x06, 0xF7] = .ok (.ready []) ∧
  decode Config.reference [0xF0, 0x66, 0x10, 0x7F, 0x7F, 0x7F, 0x7F, 0xF7] = .ok (.monitorStart 127 127 16383) ∧
  decode Config.reference [0xF0, 0x66, 0x21, 0x02, 0, 0x02, 0, 0x02, 0x08, 0x1E, 0x08, 0x28, 0xF7] =
      .ok (.scopeData 2 2 [30, 40]) ∧
  decode Config.reference [0xF0, 0x66, 0x22, 0x02, 0xF7] = .ok (.scopeEnd 2)

/-! ### The step (41_dispatch.md) -/

/-- A step runs the decoded instruction, on the state with the input taken and the transient storage empty. -/
def Obligations.StepRunsTheDecodedInstruction : Prop :=
  ∀ (s : State) (f : Frame) (rest : List Input) (i : Instr), s.cfg.admitted = true →
    s.inbox = .frameIn f :: rest → decode s.cfg f = .ok i → i.wf s.cfg = true →
    step s = exec i { s with inbox := rest, codec := { rx := [], off := 0, cells := [], tx := [], err := none } }

/-- R140, R45: a lifecycle event and a reset run their own instruction. The fourth clause, that a transmit request
is an input which a step runs, is the model's choice (log entry 17): by R140 `tx_encode` is no event of `step`. -/
def Obligations.StepRunsEventsAndRequests : Prop :=
  ∀ (s : State) (rest : List Input), s.cfg.admitted = true →
    (s.inbox = .disconnected :: rest → step s = exec .disconnected { s with inbox := rest, codec := Codec.idle }) ∧
    (s.inbox = .connected :: rest → step s = exec .connected { s with inbox := rest, codec := Codec.idle }) ∧
    (s.inbox = .hwReset :: rest → step s = exec .hwReset { s with inbox := rest, codec := Codec.idle }) ∧
    (∀ k p, s.inbox = .txEncode k p :: rest →
      step s = exec (.txEncode k p) { s with inbox := rest, codec := Codec.idle })

/-- R256: between events the block is idle and holds its state; and no input runs under a configuration that is
not admitted (R245; the fault is the model's, log entry 8). -/
def Obligations.IdleStepHoldsTheState : Prop :=
  ∀ s : State, (s.inbox = [] → step s = .next s) ∧
    (s.cfg.admitted = false → s.inbox ≠ [] → step s = .fault .fatalConfiguration)

/-- R232, stage 1: a foreign frame is discarded with no effect. -/
def Obligations.ForeignFramesAreDiscarded : Prop :=
  ∀ (s : State) (f : Frame) (rest : List Input), s.cfg.admitted = true → s.inbox = .frameIn f :: rest →
    (f.length < 3 ∨ f.getD 0 0 ≠ s.cfg.startMarker ∨ f.getD 1 0 ≠ s.cfg.vendorId) →
    step s = .next { s with inbox := rest, codec := Codec.idle, verdict := some .notOurs }

/-- R233, stage 2: an unknown command is discarded with no effect, whatever the rest of the frame. -/
def Obligations.UnknownCommandsAreDiscarded : Prop :=
  ∀ (s : State) (c : Byte) (tail : Frame) (rest : List Input), s.cfg.admitted = true →
    s.inbox = .frameIn (s.cfg.startMarker :: s.cfg.vendorId :: c :: tail) :: rest →
    (∀ k, s.cfg.cmd k ≠ c) →
    step s = .next { s with inbox := rest, codec := Codec.idle, verdict := some (.unknownCommand c) }

/-- R143, R145, stage 3: a frame that does not decode is dropped with no effect, in any gate state. -/
def Obligations.MalformedFramesAreDropped : Prop :=
  ∀ (s : State) (k : Kind) (tail : Frame) (rest : List Input) (f : Frame), s.cfg.admitted = true →
    f = s.cfg.startMarker :: s.cfg.vendorId :: s.cfg.cmd k :: tail → s.inbox = .frameIn f :: rest →
    (∀ off, decodeLayout (s.cfg.layout k) f = .error (.truncated off) →
      step s = .next { s with inbox := rest, codec := Codec.idle, verdict := some (.decodeTruncated off) }) ∧
    (∀ off, decodeLayout (s.cfg.layout k) f = .error (.invalidEncoding off) →
      step s = .next { s with inbox := rest, codec := Codec.idle, verdict := some (.decodeInvalidEncoding off) })

/-- R235: only the four kinds with a Word14 can raise InvalidEncoding, under the reference TYPE and READY
layouts. -/
def Obligations.OnlyWord14KindsRaiseInvalidEncoding : Prop :=
  ∀ (cfg : Config) (k : Kind) (f : Frame) (off : Nat),
    cfg.layoutType = Config.reference.layoutType → cfg.layoutReady = Config.reference.layoutReady →
    decodeLayout (cfg.layout k) f = .error (.invalidEncoding off) →
    k = .monitorStart ∨ k = .monitorData ∨ k = .scopeStart ∨ k = .scopeData

/-- R147: a step always answers a next state, but for a transmit request whose record does not fit its layout. -/
def Obligations.StepIsTotal : Prop :=
  ∀ s : State, s.cfg.admitted = true →
    (∀ k p, s.inbox.head? = some (.txEncode k p) → Record.fits Value.hasKind (s.cfg.payloadFields k) p = true) →
    ∃ t, step s = .next t

/-- R38, R42, R44, R71: what every step leaves: the configuration unchanged, one input taken, no transient
storage, at most one consumer event, and answers only appended. -/
def Obligations.StepTakesOneInputAndEmitsAtMostOneEvent : Prop :=
  ∀ s t : State, step s = .next t →
    t.cfg = s.cfg ∧ t.inbox = s.inbox.tail ∧ (s.inbox ≠ [] → t.codec = Codec.idle) ∧
    (∃ es, t.events = s.events ++ es ∧ es.length ≤ 1) ∧
    (∃ rs, t.txOut = s.txOut ++ rs ∧ rs.length ≤ 1)

/-- R230, R231, R249: every event step ends with a verdict other than code 80, and the verdicts of the table with
no state change and no event leave S and the events as they were. -/
def Obligations.SilentVerdictsChangeNothing : Prop :=
  ∀ (s t : State) (input : Input) (rest : List Input), step s = .next t → s.inbox = input :: rest →
    (∀ k p, input ≠ .txEncode k p) →
    ∃ v, t.verdict = some v ∧ v.code ≠ 80 ∧
      (v.code ∈ [7, 16, 17, 32, 33, 48, 49, 64, 65, 66, 68] →
        t.gate = s.gate ∧ t.activeCfg = s.activeCfg ∧ t.streams = s.streams ∧ t.events = s.events)

/-! ### The version gate (42_version_gate.md) -/

/-- R160, R162, R163, CONFIGURATION. -/
def Obligations.ConfigurationDecidesTheGate : Prop :=
  ∀ (s : State) (r : ConfigRecord),
    (s.gate = .unknown → r.versionMajor = s.cfg.localVersion.major → r.versionMinor = s.cfg.localVersion.minor →
      r.versionPatch = s.cfg.localVersion.patch →
      exec (.configuration r) s = .next { s with
        gate := .matched, activeCfg := some r, events := s.events ++ [.onConfiguration r],
        verdict := some .configMatched }) ∧
    (s.gate = .unknown →
      ¬ (r.versionMajor = s.cfg.localVersion.major ∧ r.versionMinor = s.cfg.localVersion.minor ∧
        r.versionPatch = s.cfg.localVersion.patch) →
      exec (.configuration r) s = .next { s with
        gate := .mismatched,
        events := s.events ++
          [.onVersionMismatch s.cfg.localVersion ⟨r.versionMajor, r.versionMinor, r.versionPatch⟩],
        verdict := some
          (.versionMismatch s.cfg.localVersion ⟨r.versionMajor, r.versionMinor, r.versionPatch⟩) }) ∧
    (s.gate ≠ .unknown → exec (.configuration r) s = .next { s with verdict := some .configIgnored })

/-- R161: the complete transition table of the gate, over every step. -/
def Obligations.GateTransitionTable : Prop :=
  ∀ (s t : State) (input : Input) (rest : List Input), step s = .next t → s.inbox = input :: rest →
    ((input = .disconnected ∨ input = .hwReset) →
      t.gate = .unknown ∧ t.activeCfg = none ∧ ∀ k, t.stream k = StreamRec.idle) ∧
    (∀ f r, input = .frameIn f → decode s.cfg f = .ok (.configuration r) → s.gate = .unknown →
      (⟨r.versionMajor, r.versionMinor, r.versionPatch⟩ = s.cfg.localVersion →
        t.gate = .matched ∧ t.activeCfg = some r ∧ t.events = s.events ++ [.onConfiguration r]) ∧
      (⟨r.versionMajor, r.versionMinor, r.versionPatch⟩ ≠ s.cfg.localVersion →
        t.gate = .mismatched ∧ t.activeCfg = s.activeCfg ∧
        t.events = s.events ++
          [.onVersionMismatch s.cfg.localVersion ⟨r.versionMajor, r.versionMinor, r.versionPatch⟩])) ∧
    (input ≠ .disconnected → input ≠ .hwReset →
      (∀ f r, input = .frameIn f → decode s.cfg f = .ok (.configuration r) → s.gate ≠ .unknown) →
      t.gate = s.gate ∧ t.activeCfg = s.activeCfg) ∧
    ((input = .connected ∨
        ∃ f r, input = .frameIn f ∧ decode s.cfg f = .ok (.configuration r) ∧ s.gate ≠ .unknown) →
      t.gate = s.gate ∧ t.activeCfg = s.activeCfg ∧ t.streams = s.streams ∧ t.events = s.events)

/-- R236, R164: every frame but CONFIGURATION is dropped while the gate is not Matched, and handled while it
is. -/
def Obligations.UntrustedFramesAreDropped : Prop :=
  ∀ (s : State) (i : Instr) (k : Kind), i.kind = some k → k ≠ .configuration →
    (s.gate ≠ .matched → exec i s = .next { s with verdict := some .gated }) ∧
    (s.gate = .matched → ∃ t, exec i s = .next t ∧ ∃ v, t.verdict = some v ∧ v ≠ .gated)

/-- R252: while the gate is Mismatched no inbound frame has any effect. -/
def Obligations.MismatchedGateIgnoresEveryFrame : Prop :=
  ∀ (s : State) (f : Frame) (rest : List Input), s.cfg.admitted = true → s.gate = .mismatched →
    s.inbox = .frameIn f :: rest →
    ∃ v, step s = .next { s with inbox := rest, codec := Codec.idle, verdict := some v }

/-- R264, derived: after the first CONFIGURATION the gate is terminal. In a run of any length with no DISCONNECTED
and no HWRESET, the gate does not change (R264), the active configuration does not (R163), and neither gate event is
emitted again (R163, and R165, which the spec marks as its own inference from R163). -/
def Obligations.HandshakeIsTerminalUntilReset : Prop :=
  ∀ (n : Nat) (s t : State), s.gate ≠ .unknown → .disconnected ∉ s.inbox → .hwReset ∉ s.inbox →
    Host.Core.run Sys2Proof.core n s = .next t →
    t.gate = s.gate ∧ t.activeCfg = s.activeCfg ∧
    ∃ es, t.events = s.events ++ es ∧
      (∀ r, .onConfiguration r ∉ es) ∧ (∀ a b, .onVersionMismatch a b ∉ es)

/-! ### The definition commands (43_definition_commands.md) -/

/-- R170 to R173, TYPE, CURVE, PAD, READY: one event with the payload, nothing else. -/
def Obligations.DefinitionCommandsDeliver : Prop :=
  ∀ s : State, s.gate = .matched →
    (∀ p, exec (.typeDef p) s = .next { s with events := s.events ++ [.onType p], verdict := some .delivered }) ∧
    (∀ c, exec (.curveDef c) s = .next { s with events := s.events ++ [.onCurve c], verdict := some .delivered }) ∧
    (∀ p, exec (.padDef p) s = .next { s with events := s.events ++ [.onPad p], verdict := some .delivered }) ∧
    (∀ p, exec (.ready p) s = .next { s with events := s.events ++ [.onReady], verdict := some .delivered })

/-! ### The stream commands (44_stream_commands.md) -/

/-- R182, R188, R191: MONITOR_START and SCOPE_START. -/
def Obligations.StartOpensTheStream : Prop :=
  ∀ (s : State) (k : ChannelKey) (size : Word14), s.gate = .matched →
    ∃ t, exec (startOf k size) s = .next t ∧
      t.stream k =
        { st := .collecting, declaredSize := size.toNat, cursor := 0, truncated := false, samples := [] } ∧
      (∀ k', k' ≠ k → t.stream k' = s.stream k') ∧
      t = { s with
        streams := t.streams
        verdict := some (if (s.stream k).st = .collecting then .streamRestarted else .streamStarted) }

/-- R183, R186, R187, R248, R189, R192: MONITOR_DATA and SCOPE_DATA, the checks in their order. -/
def Obligations.DataAppendsInCheckOrder : Prop :=
  ∀ (s : State) (k : ChannelKey) (offset : Word14) (vs : List Int), s.gate = .matched →
    ((s.stream k).st = .idle →
      exec (dataOf k offset vs) s = .next { s with verdict := some .streamNotCollecting }) ∧
    ((s.stream k).st = .collecting → (s.stream k).truncated = true →
      exec (dataOf k offset vs) s = .next { s with verdict := some .streamPoisoned }) ∧
    ((s.stream k).st = .collecting → (s.stream k).truncated = false →
      s.cfg.offsetPolicy = .rejectOnMismatch → offset.toNat ≠ (s.stream k).cursor →
      exec (dataOf k offset vs) s =
        .next { s with verdict := some (.streamOffsetMismatch offset.toNat (s.stream k).cursor) }) ∧
    ((s.stream k).st = .collecting → (s.stream k).truncated = false →
      (s.cfg.offsetPolicy = .ignore ∨ offset.toNat = (s.stream k).cursor) →
      (s.stream k).declaredSize < (s.stream k).cursor + vs.length →
      ∃ t, exec (dataOf k offset vs) s = .next t ∧
        t.stream k = { s.stream k with truncated := true } ∧
        (∀ k', k' ≠ k → t.stream k' = s.stream k') ∧
        t = { s with streams := t.streams, verdict := some .streamOverflow }) ∧
    ((s.stream k).st = .collecting → (s.stream k).truncated = false →
      (s.cfg.offsetPolicy = .ignore ∨ offset.toNat = (s.stream k).cursor) →
      (s.stream k).cursor + vs.length ≤ (s.stream k).declaredSize →
      ∃ t, exec (dataOf k offset vs) s = .next t ∧
        t.stream k = { s.stream k with
          samples := (s.stream k).samples ++ vs, cursor := (s.stream k).cursor + vs.length } ∧
        (∀ k', k' ≠ k → t.stream k' = s.stream k') ∧
        t = { s with streams := t.streams, verdict := some .streamAppended })

/-- R184, R190, R193: MONITOR_END and SCOPE_END. -/
def Obligations.EndDeliversOnlyTheComplete : Prop :=
  ∀ (s : State) (k : ChannelKey), s.gate = .matched →
    ((s.stream k).st = .idle → exec (endOf k) s = .next { s with verdict := some .streamEndIdle }) ∧
    ((s.stream k).st = .collecting → (s.stream k).truncated = false →
      (s.stream k).cursor = (s.stream k).declaredSize →
      ∃ t, exec (endOf k) s = .next t ∧ t.stream k = StreamRec.idle ∧
        (∀ k', k' ≠ k → t.stream k' = s.stream k') ∧
        t = { s with
          streams := t.streams, events := s.events ++ [.onStreamComplete k (s.stream k).samples],
          verdict := some .streamComplete }) ∧
    ((s.stream k).st = .collecting →
      ((s.stream k).truncated = true ∨ (s.stream k).cursor ≠ (s.stream k).declaredSize) →
      ∃ t, exec (endOf k) s = .next t ∧ t.stream k = StreamRec.idle ∧
        (∀ k', k' ≠ k → t.stream k' = s.stream k') ∧
        t = { s with streams := t.streams, verdict := some .streamIncomplete })

/-- R196, first half: a stream whose DATA frames sum to its declared size, with offsets as the policy asks, is
delivered once, whole and in order. -/
def Obligations.CompleteStreamIsDeliveredInOrder : Prop :=
  ∀ (s : State) (k : ChannelKey) (size : Word14) (frames : List (Word14 × List Int)), s.gate = .matched →
    (samplesOf frames).length = size.toNat →
    (s.cfg.offsetPolicy = .ignore ∨
      ∀ pre x post, frames = pre ++ x :: post → x.1.toNat = (samplesOf pre).length) →
    ∃ t, runInstrs (streamOf k size frames) s = .next t ∧ t.stream k = StreamRec.idle ∧
      (∀ k', k' ≠ k → t.stream k' = s.stream k') ∧
      t = { s with
        streams := t.streams, events := s.events ++ [.onStreamComplete k (samplesOf frames)],
        verdict := some .streamComplete }

/-- R196, second half, and R243: whatever DATA frames arrive between a START and the next END of a key, the
consumer is given nothing, or exactly the declared number of samples, whole frames in arrival order; and nothing if
too few samples were sent. -/
def Obligations.NoPartialStreamIsDelivered : Prop :=
  ∀ (s : State) (k : ChannelKey) (size : Word14) (frames : List (Word14 × List Int)), s.gate = .matched →
    ∃ t, runInstrs (streamOf k size frames) s = .next t ∧ t.stream k = StreamRec.idle ∧
      (t.events = s.events ∨
        ∃ kept, kept.Sublist frames ∧ (samplesOf kept).length = size.toNat ∧
          t.events = s.events ++ [.onStreamComplete k (samplesOf kept)]) ∧
      ((samplesOf frames).length < size.toNat → t.events = s.events)

/-- R187, R242, R184: once a stream has overflowed, every DATA is dropped and the END delivers nothing. -/
def Obligations.OverflowPoisonsUntilTheEnd : Prop :=
  ∀ (s : State) (k : ChannelKey) (frames : List (Word14 × List Int)), s.gate = .matched →
    (s.stream k).st = .collecting → (s.stream k).truncated = true →
    ∃ t, runInstrs (frames.map (fun x => dataOf k x.1 x.2) ++ [endOf k]) s = .next t ∧
      t.stream k = StreamRec.idle ∧ (∀ k', k' ≠ k → t.stream k' = s.stream k') ∧
      t = { s with streams := t.streams, verdict := some .streamIncomplete }

/-- R266, "One DATA duplicated", under RejectOnMismatch: the duplicate is dropped. -/
def Obligations.DuplicateDataIsDropped : Prop :=
  ∀ (s : State) (k : ChannelKey) (offset : Word14) (vs : List Int), s.gate = .matched →
    s.cfg.offsetPolicy = .rejectOnMismatch → (s.stream k).st = .collecting → (s.stream k).truncated = false →
    offset.toNat = (s.stream k).cursor → vs ≠ [] → (s.stream k).cursor + vs.length ≤ (s.stream k).declaredSize →
    ∃ t, exec (dataOf k offset vs) s = .next t ∧
      exec (dataOf k offset vs) t =
        .next { t with verdict := some (.streamOffsetMismatch offset.toNat (offset.toNat + vs.length)) }

/-- R195: a stream command sees its own key's record alone: states that agree on it, on the gate and on the
configuration get the same record, verdict and events. -/
def Obligations.StreamCommandsSeeOnlyTheirKey : Prop :=
  ∀ (s s' : State) (k : ChannelKey) (i : Instr), StreamCommand k i → s.cfg = s'.cfg → s.gate = s'.gate →
    s.stream k = s'.stream k →
    ∃ t t' es, exec i s = .next t ∧ exec i s' = .next t' ∧ t.stream k = t'.stream k ∧ t.verdict = t'.verdict ∧
      t.events = s.events ++ es ∧ t'.events = s'.events ++ es

/-- R195: stream commands of different keys commute on the stream table. -/
def Obligations.StreamsOfDifferentKeysCommute : Prop :=
  ∀ (s : State) (k k' : ChannelKey) (i j : Instr), k ≠ k' → StreamCommand k i → StreamCommand k' j →
    Memory.wf s.streams →
    ∃ t u, runInstrs [i, j] s = .next t ∧ runInstrs [j, i] s = .next u ∧ t.streams = u.streams

/-- The canonical form of the stream table: tables that read alike are equal. -/
def Obligations.EqualReadsMeanEqualTables : Prop :=
  ∀ m m' : Memory, Memory.wf m → Memory.wf m' → (∀ k, Memory.read m k = Memory.read m' k) → m = m'

/-! ### Events and transmit (45_events_and_tx.md) -/

/-- R210, R185, R261: DISCONNECTED. -/
def Obligations.DisconnectClearsEverything : Prop :=
  ∀ s : State, ∃ t, exec .disconnected s = .next t ∧
    t = { s with gate := .unknown, activeCfg := none, streams := t.streams, verdict := some .cleared } ∧
    (∀ k, t.stream k = StreamRec.idle) ∧ exec .disconnected t = .next t

/-- R211: CONNECTED. -/
def Obligations.ConnectedDoesNothing : Prop :=
  ∀ s : State, exec .connected s = .next { s with verdict := some .noOp }

/-- R212, R43: HWRESET leaves the reset values; it differs from DISCONNECTED in its verdict alone. -/
def Obligations.HardwareResetLeavesResetValues : Prop :=
  ∀ s : State, ∃ t, exec .hwReset s = .next t ∧
    t.gate = State.reset.gate ∧ t.activeCfg = State.reset.activeCfg ∧
    (∀ k, t.stream k = State.reset.stream k) ∧ t.events = s.events ∧ t.verdict = some .resetDone ∧
    exec .disconnected s = .next { t with verdict := some .cleared } ∧
    t = { s with gate := t.gate, activeCfg := t.activeCfg, streams := t.streams, verdict := t.verdict }

/-- R213, R216, R244: TX_ENCODE answers the complete frame, or refuses exactly when a value is out of range. The
Header's vendor byte is one of the values: R7 allows any u8, and R213 has it encoded as a Byte field. -/
def Obligations.TransmitAnswersFrameOrRefusal : Prop :=
  ∀ (s : State) (k : Kind) (p : Record), s.cfg.admitted = true →
    Record.fits Value.hasKind (s.cfg.payloadFields k) p = true →
    (s.cfg.vendorId.toNat ≤ 127 → Record.fits Value.encodable (s.cfg.payloadFields k) p = true →
      ∃ f, encodeLayout s.cfg (s.cfg.layout k)
          ([(.vendor, .byte s.cfg.vendorId.toNat), (.command, .byte (s.cfg.cmd k).toNat)] ++ p) = .ok f ∧
        exec (.txEncode k p) s = .next { s with txOut := s.txOut ++ [.frame f] }) ∧
    (127 < s.cfg.vendorId.toNat ∨ Record.fits Value.encodable (s.cfg.payloadFields k) p = false →
      exec (.txEncode k p) s = .next { s with txOut := s.txOut ++ [.refused .encodeOutOfRange] })

/-- The model's stop (log entry 9, D39): a record that does not fit its layout is refused. -/
def Obligations.IllShapedRecordsAreRefused : Prop :=
  ∀ (s : State) (k : Kind) (p : Record), s.cfg.admitted = true →
    Record.fits Value.hasKind (s.cfg.payloadFields k) p = false →
    exec (.txEncode k p) s = .refused .illShapedRecord

/-- R215: a transmit request commutes with every frame and event: neither changes the outcome of the other, and
the request changes what the transmit client received alone. -/
def Obligations.TransmitIsIndependentOfReceive : Prop :=
  ∀ (s t u : State) (i : Instr) (k : Kind) (p : Record),
    (i.kind ≠ none ∨ i = .disconnected ∨ i = .connected ∨ i = .hwReset) →
    exec i s = .next t → exec (.txEncode k p) s = .next u →
    ∃ x, u = { s with txOut := s.txOut ++ [x] } ∧
      exec (.txEncode k p) t = .next { t with txOut := t.txOut ++ [x] } ∧
      exec i u = .next { t with txOut := t.txOut ++ [x] }

/-- R217: the frame of a payload in the domain of R214, fed back as an inbound frame, runs the instruction of its
kind with exactly that payload. The vendor byte is 0..127, without which R213 refuses every transmit. -/
def Obligations.LoopbackRunsTheTransmittedPayload : Prop :=
  ∀ (s : State) (k : Kind) (p : Record), s.cfg.admitted = true → s.cfg.vendorId.toNat ≤ 127 →
    Record.fits Value.inDomain (s.cfg.payloadFields k) p = true →
    ∃ f i, txEncode s.cfg k p = .ok f ∧ i.kind = some k ∧ i.payload = p ∧
      ∀ rest, s.inbox = .frameIn f :: rest → step s = exec i { s with inbox := rest, codec := Codec.idle }

/-! ### Invariants and reset (10_state.md) -/

/-- R43, R260: the reset values the spec gives. -/
def Obligations.ResetValues : Prop :=
  State.reset.gate = .unknown ∧ State.reset.activeCfg = none ∧
  ∀ k, State.reset.stream k =
    { st := .idle, declaredSize := 0, cursor := 0, truncated := false, samples := [] }

/-- The invariants hold at reset. -/
def Obligations.ResetIsGood : Prop := State.reset.Good

/-- R36, R194, R147: every step keeps the invariants, from any state that has them. -/
def Obligations.EveryStepKeepsTheInvariants : Prop :=
  ∀ s t : State, s.Good → step s = .next t → t.Good

/-- R194: every well-formed instruction keeps the invariants, the field operations too. -/
def Obligations.EveryInstructionKeepsTheInvariants : Prop :=
  ∀ (i : Instr) (s t : State), i.wf s.cfg = true → s.Good → exec i s = .next t → t.Good
end

