-- ==== Sys2Proof/Laws/State.lean ====
section
/-! SUPPORT. The small lemmas of the state: one for each field of each update, true by unfolding, for simp. -/

namespace Sys2Proof.Machine

open Sys2Proof


/-! ### `emit` -/

@[simp] theorem emit_cfg (s : State) (e : ConsumerEvent) : (s.emit e).cfg = s.cfg := rfl
@[simp] theorem emit_gate (s : State) (e : ConsumerEvent) : (s.emit e).gate = s.gate := rfl
@[simp] theorem emit_activeCfg (s : State) (e : ConsumerEvent) : (s.emit e).activeCfg = s.activeCfg := rfl
@[simp] theorem emit_streams (s : State) (e : ConsumerEvent) : (s.emit e).streams = s.streams := rfl
@[simp] theorem emit_codec (s : State) (e : ConsumerEvent) : (s.emit e).codec = s.codec := rfl
@[simp] theorem emit_inbox (s : State) (e : ConsumerEvent) : (s.emit e).inbox = s.inbox := rfl
@[simp] theorem emit_events (s : State) (e : ConsumerEvent) : (s.emit e).events = s.events ++ [e] := rfl
@[simp] theorem emit_verdict (s : State) (e : ConsumerEvent) : (s.emit e).verdict = s.verdict := rfl
@[simp] theorem emit_txOut (s : State) (e : ConsumerEvent) : (s.emit e).txOut = s.txOut := rfl

/-! ### `conclude` -/

@[simp] theorem conclude_cfg (s : State) (v : Verdict) : (s.conclude v).cfg = s.cfg := rfl
@[simp] theorem conclude_gate (s : State) (v : Verdict) : (s.conclude v).gate = s.gate := rfl
@[simp] theorem conclude_activeCfg (s : State) (v : Verdict) : (s.conclude v).activeCfg = s.activeCfg := rfl
@[simp] theorem conclude_streams (s : State) (v : Verdict) : (s.conclude v).streams = s.streams := rfl
@[simp] theorem conclude_codec (s : State) (v : Verdict) : (s.conclude v).codec = s.codec := rfl
@[simp] theorem conclude_inbox (s : State) (v : Verdict) : (s.conclude v).inbox = s.inbox := rfl
@[simp] theorem conclude_events (s : State) (v : Verdict) : (s.conclude v).events = s.events := rfl
@[simp] theorem conclude_verdict (s : State) (v : Verdict) : (s.conclude v).verdict = some v := rfl
@[simp] theorem conclude_txOut (s : State) (v : Verdict) : (s.conclude v).txOut = s.txOut := rfl

/-! ### `setStream` -/

@[simp] theorem setStream_cfg (s : State) (k : ChannelKey) (r : StreamRec) : (s.setStream k r).cfg = s.cfg := rfl
@[simp] theorem setStream_gate (s : State) (k : ChannelKey) (r : StreamRec) : (s.setStream k r).gate = s.gate := rfl
@[simp] theorem setStream_activeCfg (s : State) (k : ChannelKey) (r : StreamRec) : (s.setStream k r).activeCfg = s.activeCfg := rfl
@[simp] theorem setStream_streams (s : State) (k : ChannelKey) (r : StreamRec) : (s.setStream k r).streams = Memory.write s.streams k r := rfl
@[simp] theorem setStream_codec (s : State) (k : ChannelKey) (r : StreamRec) : (s.setStream k r).codec = s.codec := rfl
@[simp] theorem setStream_inbox (s : State) (k : ChannelKey) (r : StreamRec) : (s.setStream k r).inbox = s.inbox := rfl
@[simp] theorem setStream_events (s : State) (k : ChannelKey) (r : StreamRec) : (s.setStream k r).events = s.events := rfl
@[simp] theorem setStream_verdict (s : State) (k : ChannelKey) (r : StreamRec) : (s.setStream k r).verdict = s.verdict := rfl
@[simp] theorem setStream_txOut (s : State) (k : ChannelKey) (r : StreamRec) : (s.setStream k r).txOut = s.txOut := rfl

/-! ### `openRx` -/

@[simp] theorem openRx_cfg (s : State) (f : Frame) : (s.openRx f).cfg = s.cfg := rfl
@[simp] theorem openRx_gate (s : State) (f : Frame) : (s.openRx f).gate = s.gate := rfl
@[simp] theorem openRx_activeCfg (s : State) (f : Frame) : (s.openRx f).activeCfg = s.activeCfg := rfl
@[simp] theorem openRx_streams (s : State) (f : Frame) : (s.openRx f).streams = s.streams := rfl
@[simp] theorem openRx_codec (s : State) (f : Frame) : (s.openRx f).codec = { Codec.idle with rx := f } := rfl
@[simp] theorem openRx_inbox (s : State) (f : Frame) : (s.openRx f).inbox = s.inbox := rfl
@[simp] theorem openRx_events (s : State) (f : Frame) : (s.openRx f).events = s.events := rfl
@[simp] theorem openRx_verdict (s : State) (f : Frame) : (s.openRx f).verdict = s.verdict := rfl
@[simp] theorem openRx_txOut (s : State) (f : Frame) : (s.openRx f).txOut = s.txOut := rfl

/-! ### `openTx` -/

@[simp] theorem openTx_cfg (s : State) : s.openTx.cfg = s.cfg := rfl
@[simp] theorem openTx_gate (s : State) : s.openTx.gate = s.gate := rfl
@[simp] theorem openTx_activeCfg (s : State) : s.openTx.activeCfg = s.activeCfg := rfl
@[simp] theorem openTx_streams (s : State) : s.openTx.streams = s.streams := rfl
@[simp] theorem openTx_codec (s : State) : s.openTx.codec = Codec.idle := rfl
@[simp] theorem openTx_inbox (s : State) : s.openTx.inbox = s.inbox := rfl
@[simp] theorem openTx_events (s : State) : s.openTx.events = s.events := rfl
@[simp] theorem openTx_verdict (s : State) : s.openTx.verdict = s.verdict := rfl
@[simp] theorem openTx_txOut (s : State) : s.openTx.txOut = s.txOut := rfl

/-! ### `clearAll` and `resetCore` -/

@[simp] theorem clearAll_cfg (s : State) : (clearAll s).cfg = s.cfg := rfl
@[simp] theorem clearAll_gate (s : State) : (clearAll s).gate = s.gate := rfl
@[simp] theorem clearAll_activeCfg (s : State) : (clearAll s).activeCfg = s.activeCfg := rfl
@[simp] theorem clearAll_streams (s : State) : (clearAll s).streams = [] := rfl
@[simp] theorem clearAll_codec (s : State) : (clearAll s).codec = s.codec := rfl
@[simp] theorem clearAll_inbox (s : State) : (clearAll s).inbox = s.inbox := rfl
@[simp] theorem clearAll_events (s : State) : (clearAll s).events = s.events := rfl
@[simp] theorem clearAll_verdict (s : State) : (clearAll s).verdict = s.verdict := rfl
@[simp] theorem clearAll_txOut (s : State) : (clearAll s).txOut = s.txOut := rfl
@[simp] theorem resetCore_cfg (s : State) : (resetCore s).cfg = s.cfg := rfl
@[simp] theorem resetCore_gate (s : State) : (resetCore s).gate = .unknown := rfl
@[simp] theorem resetCore_activeCfg (s : State) : (resetCore s).activeCfg = none := rfl
@[simp] theorem resetCore_streams (s : State) : (resetCore s).streams = [] := rfl
@[simp] theorem resetCore_codec (s : State) : (resetCore s).codec = s.codec := rfl
@[simp] theorem resetCore_inbox (s : State) : (resetCore s).inbox = s.inbox := rfl
@[simp] theorem resetCore_events (s : State) : (resetCore s).events = s.events := rfl
@[simp] theorem resetCore_verdict (s : State) : (resetCore s).verdict = s.verdict := rfl
@[simp] theorem resetCore_txOut (s : State) : (resetCore s).txOut = s.txOut := rfl

/-! ### `take` -/

@[simp] theorem take_cfg (s : State) (rest : List Input) : (s.take rest).cfg = s.cfg := rfl
@[simp] theorem take_gate (s : State) (rest : List Input) : (s.take rest).gate = s.gate := rfl
@[simp] theorem take_activeCfg (s : State) (rest : List Input) : (s.take rest).activeCfg = s.activeCfg := rfl
@[simp] theorem take_streams (s : State) (rest : List Input) : (s.take rest).streams = s.streams := rfl
@[simp] theorem take_codec (s : State) (rest : List Input) : (s.take rest).codec = Codec.idle := rfl
@[simp] theorem take_inbox (s : State) (rest : List Input) : (s.take rest).inbox = rest := rfl
@[simp] theorem take_events (s : State) (rest : List Input) : (s.take rest).events = s.events := rfl
@[simp] theorem take_verdict (s : State) (rest : List Input) : (s.take rest).verdict = s.verdict := rfl
@[simp] theorem take_txOut (s : State) (rest : List Input) : (s.take rest).txOut = s.txOut := rfl

/-! ### `withFetchWord` -/

@[simp] theorem withFetchWord_cfg (s : State) (nbits w : Nat) : (s.withFetchWord nbits w).cfg = s.cfg := rfl
@[simp] theorem withFetchWord_gate (s : State) (nbits w : Nat) : (s.withFetchWord nbits w).gate = s.gate := rfl
@[simp] theorem withFetchWord_activeCfg (s : State) (nbits w : Nat) : (s.withFetchWord nbits w).activeCfg = s.activeCfg := rfl
@[simp] theorem withFetchWord_streams (s : State) (nbits w : Nat) : (s.withFetchWord nbits w).streams = s.streams := rfl
@[simp] theorem withFetchWord_codec (s : State) (nbits w : Nat) : (s.withFetchWord nbits w).codec = s.codec := rfl
@[simp] theorem withFetchWord_inbox (s : State) (nbits w : Nat) : (s.withFetchWord nbits w).inbox = .frameIn (tableFrame nbits w) :: s.inbox := rfl
@[simp] theorem withFetchWord_events (s : State) (nbits w : Nat) : (s.withFetchWord nbits w).events = s.events := rfl
@[simp] theorem withFetchWord_verdict (s : State) (nbits w : Nat) : (s.withFetchWord nbits w).verdict = s.verdict := rfl
@[simp] theorem withFetchWord_txOut (s : State) (nbits w : Nat) : (s.withFetchWord nbits w).txOut = s.txOut := rfl

/-! ### `afterDec`: it writes the codec alone -/

@[simp] theorem afterDec_cfg (s : State) (r : Except DecodeError (Record × Nat)) : (s.afterDec r).cfg = s.cfg := by cases r <;> rfl
@[simp] theorem afterDec_gate (s : State) (r : Except DecodeError (Record × Nat)) : (s.afterDec r).gate = s.gate := by cases r <;> rfl
@[simp] theorem afterDec_activeCfg (s : State) (r : Except DecodeError (Record × Nat)) : (s.afterDec r).activeCfg = s.activeCfg := by cases r <;> rfl
@[simp] theorem afterDec_streams (s : State) (r : Except DecodeError (Record × Nat)) : (s.afterDec r).streams = s.streams := by cases r <;> rfl
@[simp] theorem afterDec_inbox (s : State) (r : Except DecodeError (Record × Nat)) : (s.afterDec r).inbox = s.inbox := by cases r <;> rfl
@[simp] theorem afterDec_events (s : State) (r : Except DecodeError (Record × Nat)) : (s.afterDec r).events = s.events := by cases r <;> rfl
@[simp] theorem afterDec_verdict (s : State) (r : Except DecodeError (Record × Nat)) : (s.afterDec r).verdict = s.verdict := by cases r <;> rfl
@[simp] theorem afterDec_txOut (s : State) (r : Except DecodeError (Record × Nat)) : (s.afterDec r).txOut = s.txOut := by cases r <;> rfl

/-! ### `afterEnc`: it writes the codec alone -/

@[simp] theorem afterEnc_cfg (s : State) (r : Except EncodeStop Frame) : (s.afterEnc r).cfg = s.cfg := by cases r <;> rfl
@[simp] theorem afterEnc_gate (s : State) (r : Except EncodeStop Frame) : (s.afterEnc r).gate = s.gate := by cases r <;> rfl
@[simp] theorem afterEnc_activeCfg (s : State) (r : Except EncodeStop Frame) : (s.afterEnc r).activeCfg = s.activeCfg := by cases r <;> rfl
@[simp] theorem afterEnc_streams (s : State) (r : Except EncodeStop Frame) : (s.afterEnc r).streams = s.streams := by cases r <;> rfl
@[simp] theorem afterEnc_inbox (s : State) (r : Except EncodeStop Frame) : (s.afterEnc r).inbox = s.inbox := by cases r <;> rfl
@[simp] theorem afterEnc_events (s : State) (r : Except EncodeStop Frame) : (s.afterEnc r).events = s.events := by cases r <;> rfl
@[simp] theorem afterEnc_verdict (s : State) (r : Except EncodeStop Frame) : (s.afterEnc r).verdict = s.verdict := by cases r <;> rfl
@[simp] theorem afterEnc_txOut (s : State) (r : Except EncodeStop Frame) : (s.afterEnc r).txOut = s.txOut := by cases r <;> rfl

/-! ### The stream record through updates that do not touch the table -/

@[simp] theorem emit_stream (s : State) (e : ConsumerEvent) (k : ChannelKey) : (s.emit e).stream k = s.stream k := rfl
@[simp] theorem conclude_stream (s : State) (v : Verdict) (k : ChannelKey) : (s.conclude v).stream k = s.stream k := rfl
@[simp] theorem take_stream (s : State) (rest : List Input) (k : ChannelKey) : (s.take rest).stream k = s.stream k := rfl
@[simp] theorem clearAll_stream (s : State) (k : ChannelKey) : (clearAll s).stream k = StreamRec.idle := rfl
@[simp] theorem resetCore_stream (s : State) (k : ChannelKey) : (resetCore s).stream k = StreamRec.idle := rfl

end Sys2Proof.Machine
end

