-- ==== Sys2Proof/Laws/Layout.lean ====
section
/-! SUPPORT. Records against layouts, well-formed layouts and admitted configurations. -/

namespace Sys2Proof

/-- A weaker check on values fits more records. -/
theorem Record.fits_mono {p q : FieldDesc → Value → Bool} (h : ∀ d v, p d v = true → q d v = true) :
    ∀ (l : FieldLayout) (r : Record), Record.fits p l r = true → Record.fits q l r = true
  | [], [], _ => rfl
  | [], _ :: _, hf => by simp [Record.fits] at hf
  | (fld, d) :: l, r, hf => by
    by_cases hd : d = .marker
    · simp only [Record.fits, if_pos hd] at hf ⊢; exact Record.fits_mono h l r hf
    · cases r with
      | nil => simp [Record.fits, hd] at hf
      | cons c r =>
        simp only [Record.fits, if_neg hd, Bool.and_eq_true] at hf ⊢
        exact ⟨⟨hf.1.1, h _ _ hf.1.2⟩, Record.fits_mono h l r hf.2⟩

/-- A record that fits a layout with a payload field in front. -/
theorem Record.fits_cons {p fld d l r} (hd : d ≠ FieldDesc.marker) (h : Record.fits p ((fld, d) :: l) r = true) :
  ∃ v r', r = (fld, v) :: r' ∧ p d v = true ∧ Record.fits p l r' = true := by
  cases r with
  | nil => simp [Record.fits, hd] at h
  | cons c r =>
    obtain ⟨fld', v⟩ := c
    simp only [Record.fits, if_neg hd, Bool.and_eq_true, decide_eq_true_eq] at h
    obtain ⟨⟨rfl, h1⟩, h2⟩ := h
    exact ⟨v, r, rfl, h1, h2⟩

/-- A Marker takes no entry of the record. -/
theorem Record.fits_marker {p fld l r} : Record.fits p ((fld, .marker) :: l) r = Record.fits p l r := by
  simp [Record.fits]

/-- Only the empty record fits the empty layout. -/
theorem Record.fits_nil {p r} (h : Record.fits p [] r = true) : r = [] := by
  cases r with | nil => rfl | cons c r => simp [Record.fits] at h

/-- The end Marker takes no entry of the record. -/
theorem Record.fits_append_marker {p e} : ∀ (l : FieldLayout) (r : Record), Record.fits p (l ++ [(e, .marker)]) r = Record.fits p l r
  | [], r => by cases r <;> simp [Record.fits]
  | (fld, d) :: l, r => by
    simp only [List.cons_append, Record.fits, Record.fits_append_marker l]

/-- A well-formed layout is Header, payload fields, end Marker (R80, R103). -/
theorem FieldLayout.wf_split {l : FieldLayout} (h : l.wf = true) : ∃ mid e, l = headerFields ++ (mid ++ [(e, .marker)]) ∧ (∀ x ∈ mid, x.2 ≠ .marker) ∧ (l.map Prod.fst).Nodup := by
  simp only [FieldLayout.wf, Bool.and_eq_true, beq_iff_eq, decide_eq_true_eq] at h
  obtain ⟨⟨⟨h1, h2⟩, h3⟩, h4⟩ := h
  have hl : l = l.take 3 ++ l.drop 3 := (List.take_append_drop 3 l).symm
  rcases List.eq_nil_or_concat (l.drop 3) with hn | ⟨mid, last, hc⟩
  · rw [hn] at h2; simp at h2
  · rw [List.concat_eq_append] at hc
    rw [hc] at h2 h3
    obtain ⟨e, d⟩ := last
    simp at h2; subst h2
    refine ⟨mid, e, by rw [hl, h1, hc], ?_, h4⟩
    simpa using h3

/-- Every kind is in the list of kinds. -/
theorem Kind.mem_all (k : Kind) : k ∈ Kind.all := by cases k <;> decide

/-- What admission gives (R8, R103). -/
structure Admitted (cfg : Config) : Prop where
  inj : (Kind.all.map cfg.cmd).Nodup
  small : ∀ k, (cfg.cmd k).toNat < 128
  lay : ∀ k, (cfg.layout k).wf = true

/-- What admission gives. -/
theorem admitted_facts {cfg : Config} (h : cfg.admitted = true) : Admitted cfg := by
  simp only [Config.admitted, Bool.and_eq_true, decide_eq_true_eq, List.all_eq_true] at h
  obtain ⟨⟨⟨⟨⟨h1, h2⟩, _⟩, _⟩, _⟩, h7⟩ := h
  exact ⟨h1, fun k => h2 k (Kind.mem_all k), fun k => h7 k (Kind.mem_all k)⟩

/-- Command bytes name one kind each (R8). -/
theorem cmd_injective {cfg : Config} (h : cfg.admitted = true) {k k' : Kind} (hk : cfg.cmd k = cfg.cmd k') : k = k' :=
  (List.inj_on_of_nodup_map (admitted_facts h).inj) (Kind.mem_all k) (Kind.mem_all k') hk

/-- The command byte of a kind names it. -/
theorem kindOf_cmd {cfg : Config} (h : cfg.admitted = true) (k : Kind) : cfg.kindOf (cfg.cmd k) = some k := by
  unfold Config.kindOf
  cases hf : Kind.all.find? (fun k' => cfg.cmd k' == cfg.cmd k) with
  | none => have := List.find?_eq_none.1 hf k (Kind.mem_all k); simp at this
  | some k' =>
    have := List.find?_some hf
    simp only [beq_iff_eq] at this
    rw [cmd_injective h this]

/-- The kind found for a byte has that byte. -/
theorem kindOf_some {cfg : Config} {c k} (h : cfg.kindOf c = some k) : cfg.cmd k = c := by
  have := List.find?_some h; simpa using this

/-- The layout of a kind, cut in its three parts. -/
theorem layout_split {cfg : Config} (h : cfg.admitted = true) (k : Kind) : ∃ e, cfg.layout k = headerFields ++ (cfg.payloadFields k ++ [(e, .marker)]) := by
  obtain ⟨mid, e, h1, h2, _⟩ := FieldLayout.wf_split ((admitted_facts h).lay k)
  refine ⟨e, ?_⟩
  have : cfg.payloadFields k = mid := by simp [Config.payloadFields, h1, headerFields]
  rw [this, h1]

/-- A record under a whole layout: the Header bytes and the payload. -/
theorem fits_layout {p : FieldDesc → Value → Bool} {cfg : Config} (h : cfg.admitted = true) (k : Kind) (r : Record) :
   Record.fits p (cfg.layout k) (cfg.header k ++ r) = (p .byte (.byte cfg.vendorId.toNat) && p .byte (.byte (cfg.cmd k).toNat) && Record.fits p (cfg.payloadFields k) r) := by
  obtain ⟨e, he⟩ := layout_split h k
  rw [he]; simp [headerFields, Config.header, Record.fits, Record.fits_append_marker, Bool.and_assoc]

/-- What a decoded frame is made of. -/
theorem decode_inv {cfg f i} (h : decode cfg f = .ok i) : ∃ k r o, 3 ≤ f.length ∧ f.getD 0 0 = cfg.startMarker ∧ f.getD 1 0 = cfg.vendorId ∧ cfg.cmd k = f.getD 2 0 ∧ decodeLayout (cfg.layout k) f = .ok (r, o) ∧ i = Instr.ofPayload k (r.drop 2) := by
  unfold decode at h
  split at h
  · simp at h
  · next h0 =>
    simp only [not_or, not_lt, not_not, Frame.at] at h0
    split at h
    · simp at h
    · next k hk =>
      split at h
      · simp at h
      · next r o hd =>
        simp at h
        exact ⟨k, r, o, h0.1, h0.2.1, h0.2.2, kindOf_some hk, hd, h.symm⟩

end Sys2Proof
end

