-- ==== Sys2Proof/Laws/Codec.lean ====
section
/-! SUPPORT. What each field operation can answer, said once. -/

namespace Sys2Proof

open Sys2Proof.Machine

/-- Some high bit is set exactly when some byte is 128 or more. -/
theorem word_high_bits (m l : Byte) : (m.msb || l.msb) = true ↔ ¬ (m.toNat < 128 ∧ l.toNat < 128) := by
  simp only [BitVec.msb_eq_decide, Bool.or_eq_true, decide_eq_true_eq]
  norm_num; omega

/-- Joining two seven-bit halves is 128·m + l (R124). -/
theorem word_join (m l : Byte) (h : l.toNat < 128) : (m.toNat <<< 7) ||| l.toNat = 128 * m.toNat + l.toNat := by
  rw [Nat.shiftLeft_eq, Nat.mul_comm m.toNat]
  exact (Nat.two_pow_add_eq_or_of_lt (i := 7) (by simpa using h) m.toNat).symm

/-- All that `decWord14` can answer. -/
theorem decWord14_spec (f : Frame) (off : Nat) : decWord14 f off =
   if ¬ wordPresent f off then .error (.truncated off) else if ¬ wordClear f off then .error (.invalidEncoding off)
   else .ok (wordAt f off, off + 2) := by
  unfold decWord14
  by_cases h : wordPresent f off
  · rw [if_neg (Nat.not_lt.2 h), if_neg (not_not.2 h)]
    by_cases hc : wordClear f off
    · have hb := (word_high_bits (f.getD off 0) (f.getD (off+1) 0)).not.2 (not_not.2 hc)
      simp only [Frame.at, if_neg hb, if_neg (not_not.2 hc), word_join _ _ hc.2, wordAt]
    · have hb := (word_high_bits (f.getD off 0) (f.getD (off+1) 0)).2 hc
      simp only [Frame.at, if_pos hc]; exact if_pos hb
  · rw [if_pos (Nat.lt_of_not_le h), if_pos h]

/-- A word with both high bits clear is at most 16383. -/
theorem wordAt_le {f : Frame} {off : Nat} (h : wordClear f off) : wordAt f off ≤ 16383 := by
  have := h.1; have := h.2; unfold wordAt; omega

/-- When `decWord14` answers a word, and which. -/
theorem decWord14_ok_iff {f : Frame} {off w o} : decWord14 f off = .ok (w, o) ↔ wordPresent f off ∧ wordClear f off ∧ w = wordAt f off ∧ o = off + 2 := by
  rw [decWord14_spec]
  by_cases h : wordPresent f off
  · by_cases h2 : wordClear f off
    · rw [if_neg (not_not.2 h), if_neg (not_not.2 h2)]; simp [h, eq_comm]; intros; exact h2
    · rw [if_neg (not_not.2 h), if_pos h2]; simp [h2]
  · rw [if_pos h]; simp [h]

/-- The loop of DEC_SAMPLES when every word is there and clear. -/
theorem decWords_of_present : ∀ (n : Nat) (f : Frame) (off : Nat),
   (∀ i, i < n → wordPresent f (off + 2*i) ∧ wordClear f (off + 2*i)) →
   decWords n f off = .ok ((List.range n).map (fun i => wordAt f (off + 2*i)), off + 2*n)
 | 0, f, off, _ => by simp [decWords]
 | n+1, f, off, h => by
   have h0 := h 0 (by omega)
   simp only [Nat.mul_zero, Nat.add_zero] at h0
   rw [decWords, decWord14_spec, if_neg (not_not.2 h0.1), if_neg (not_not.2 h0.2)]
   have := decWords_of_present n f (off+2) (fun i hi => by
     have := h (i+1) (by omega); rwa [show off + 2*(i+1) = off + 2 + 2*i by omega] at this)
   simp only [this, List.range_succ_eq_map, List.map_cons, List.map_map]
   simp only [Nat.mul_zero, Nat.add_zero, Except.ok.injEq, Prod.mk.injEq, List.cons.injEq, true_and]
   constructor
   · apply List.map_congr_left; intro i _; simp only [Function.comp]; congr 1; omega
   · omega

/-- The loop of DEC_SAMPLES at the first word that is absent or not clear. -/
theorem decWords_of_first_fault : ∀ (n : Nat) (f : Frame) (off j : Nat), j < n →
   (∀ i, i < j → wordPresent f (off + 2*i) ∧ wordClear f (off + 2*i)) →
   (¬ wordPresent f (off + 2*j) → decWords n f off = .error (.truncated (off + 2*j))) ∧
   (wordPresent f (off + 2*j) → ¬ wordClear f (off + 2*j) → decWords n f off = .error (.invalidEncoding (off + 2*j)))
 | n+1, f, off, 0, _, h => by
   simp only [Nat.mul_zero, Nat.add_zero]
   constructor
   · intro h0; rw [decWords, decWord14_spec, if_pos h0]
   · intro h0 h1; rw [decWords, decWord14_spec, if_neg (not_not.2 h0), if_pos h1]
 | n+1, f, off, j+1, hj, h => by
   have h0 := h 0 (by omega)
   simp only [Nat.mul_zero, Nat.add_zero] at h0
   rw [decWords, decWord14_spec, if_neg (not_not.2 h0.1), if_neg (not_not.2 h0.2)]
   have := decWords_of_first_fault n f (off+2) j (by omega) (fun i hi => by
     have := h (i+1) (by omega); rwa [show off + 2*(i+1) = off + 2 + 2*i by omega] at this)
   rw [show off + 2*(j+1) = off + 2 + 2*j by omega]
   constructor
   · intro h1; simp only [this.1 h1]
   · intro h1 h2; simp only [this.2 h1 h2]

/-- The bytes of a word given by its two halves. -/
theorem wordBytes_eq (h l : Byte) (_hh : h.toNat ≤ 127) (hl : l.toNat ≤ 127) : wordBytes (128 * h.toNat + l.toNat) = [h, l] := by
  unfold wordBytes
  have e1 : (128 * h.toNat + l.toNat) >>> 7 = h.toNat := by rw [Nat.shiftRight_eq_div_pow]; omega
  have e2 : (128 * h.toNat + l.toNat) &&& 0x7F = l.toNat := by
    rw [show (0x7F : Nat) = 2^7-1 from rfl, Nat.and_two_pow_sub_one_eq_mod]; omega
  rw [e1, e2]; simp

/-- Every 14-bit value has two halves. -/
theorem word_split (n : Nat) (hn : n ≤ 16383) : ∃ h l : Byte, h.toNat ≤ 127 ∧ l.toNat ≤ 127 ∧ n = 128 * h.toNat + l.toNat :=
  ⟨BitVec.ofNat 8 (n/128), BitVec.ofNat 8 (n%128), by simp only [BitVec.toNat_ofNat]; omega, by simp only [BitVec.toNat_ofNat]; omega,
   by simp only [BitVec.toNat_ofNat]; omega⟩

/-- A word written into a frame reads back. -/
theorem wordAt_wordBytes (n : Nat) (hn : n ≤ 16383) (pre post : Frame) :
    wordPresent (pre ++ wordBytes n ++ post) pre.length ∧ wordClear (pre ++ wordBytes n ++ post) pre.length ∧ wordAt (pre ++ wordBytes n ++ post) pre.length = n := by
  obtain ⟨h, l, hh, hl, rfl⟩ := word_split n hn
  rw [wordBytes_eq h l hh hl]
  have e1 : (pre ++ [h, l] ++ post).getD pre.length 0 = h := by simp [List.getD]
  have e2 : (pre ++ [h, l] ++ post).getD (pre.length+1) 0 = l := by simp [List.getD]
  refine ⟨by simp [wordPresent], ?_, ?_⟩
  · unfold wordClear; rw [e1, e2]; omega
  · unfold wordAt; rw [e1, e2]

/-- The bytes of a word have their high bit clear. -/
theorem wordBytes_small (n : Nat) (hn : n ≤ 16383) : ∀ b ∈ wordBytes n, b.toNat ≤ 127 := by
  obtain ⟨h, l, hh, hl, rfl⟩ := word_split n hn
  rw [wordBytes_eq h l hh hl]; intro b hb; simp at hb; rcases hb with rfl | rfl <;> assumption

/-- The loop of ENC_SAMPLES on samples in range. -/
theorem encWords_ok : ∀ vs : List Int, (∀ v ∈ vs, -1024 ≤ v ∧ v ≤ 15359) →
    encWords vs = .ok (vs.flatMap (fun s => wordBytes (s + 1024).toNat))
  | [], _ => rfl
  | v :: vs, h => by
    have hv := h v (by simp)
    rw [encWords, encWord14, if_neg (by omega), encWords_ok vs (fun x hx => h x (by simp [hx]))]
    simp

/-- The loop of ENC_SAMPLES with a sample out of range. -/
theorem encWords_err : ∀ vs : List Int, (∃ v ∈ vs, v < -1024 ∨ 15359 < v) → encWords vs = .error .outOfRange
  | v :: vs, h => by
    by_cases hv : v < -1024 ∨ 15359 < v
    · rw [encWords, encWord14, if_pos (by omega)]
    · have : ∃ v ∈ vs, v < -1024 ∨ 15359 < v := by
        obtain ⟨x, hx, hx'⟩ := h
        rcases List.mem_cons.1 hx with rfl | hx
        · exact absurd hx' hv
        · exact ⟨x, hx, hx'⟩
      rw [encWords, encWord14, if_neg (by omega), encWords_err vs this]

/-- Two bytes for each sample. -/
theorem sampleBytes_length : ∀ vs : List Int, (vs.flatMap (fun s => wordBytes (s + 1024).toNat)).length = 2 * vs.length
  | [] => rfl
  | v :: vs => by
    rw [List.flatMap_cons, List.length_append, sampleBytes_length vs]; simp [wordBytes]; omega

/-- Where each sample stands. -/
theorem sampleBytes_at : ∀ (vs : List Int) (pre post : Frame), (∀ v ∈ vs, -1024 ≤ v ∧ v ≤ 15359) → ∀ (i : Nat) (h : i < vs.length),
   wordPresent (pre ++ vs.flatMap (fun s => wordBytes (s + 1024).toNat) ++ post) (pre.length + 2 * i) ∧
   wordClear (pre ++ vs.flatMap (fun s => wordBytes (s + 1024).toNat) ++ post) (pre.length + 2 * i) ∧
   wordAt (pre ++ vs.flatMap (fun s => wordBytes (s + 1024).toNat) ++ post) (pre.length + 2 * i) = (vs[i]'h + 1024).toNat
  | v :: vs, pre, post, hr, 0, h => by
    have hv := hr v (by simp)
    have := wordAt_wordBytes (v + 1024).toNat (by omega) pre (vs.flatMap (fun s => wordBytes (s + 1024).toNat) ++ post)
    simpa [List.append_assoc] using this
  | v :: vs, pre, post, hr, i+1, h => by
    have := sampleBytes_at vs (pre ++ wordBytes (v+1024).toNat) post (fun x hx => hr x (by simp [hx])) i (by simpa using h)
    rw [show (pre ++ wordBytes (v+1024).toNat).length + 2 * i = pre.length + 2 * (i+1) by simp [wordBytes]; omega] at this
    simpa only [List.flatMap_cons, List.append_assoc, List.getElem_cons_succ] using this

/-- The domain of R122 is within the decodable values. -/
theorem inDomain_wf : ∀ d v, Value.inDomain d v = true → Value.wf d v = true := by
  intro d v h
  cases d <;> cases v <;> simp [Value.inDomain, Value.wf] at h ⊢ <;> try omega
  · refine ⟨h.1, fun c hc => ?_⟩; have := h.2 c hc; omega

/-- The domain of R122 is within the encodable values. -/
theorem inDomain_encodable : ∀ d v, Value.inDomain d v = true → Value.encodable d v = true := by
  intro d v h
  cases d <;> cases v <;> simp [Value.inDomain, Value.encodable] at h ⊢ <;> try omega
  · intro c hc; exact h.2 c (List.mem_of_mem_take hc)

/-- An encodable value is of its descriptor's kind. -/
theorem encodable_hasKind : ∀ d v, Value.encodable d v = true → Value.hasKind d v = true := by
  intro d v h; cases d <;> cases v <;> simp_all [Value.hasKind, Value.encodable]

/-- A decodable value is of its descriptor's kind. -/
theorem wf_hasKind : ∀ d v, Value.wf d v = true → Value.hasKind d v = true := by
  intro d v h; cases d <;> cases v <;> simp_all [Value.hasKind, Value.wf]

/-- The words of encoded samples read back. -/
theorem decWords_enc (vs : List Int) (pre post : Frame) (h : ∀ v ∈ vs, -1024 ≤ v ∧ v ≤ 15359) :
    decWords vs.length (pre ++ vs.flatMap (fun s => wordBytes (s + 1024).toNat) ++ post) pre.length =
     .ok (vs.map (fun v => (v+1024).toNat), pre.length + 2 * vs.length) := by
  have hf := sampleBytes_at vs pre post h
  rw [decWords_of_present _ _ _ (fun i hi => ⟨(hf i hi).1, (hf i hi).2.1⟩)]
  simp only [Except.ok.injEq, Prod.mk.injEq, and_true]
  apply List.ext_getElem
  · simp
  · intro i h1 h2
    simp only [List.length_map, List.length_range] at h1
    simpa using (hf i h1).2.2

/-- An encoded sample list reads back. -/
theorem decSamples_enc (vs : List Int) (pre post : Frame) (hl : vs.length ≤ 16383) (h : ∀ v ∈ vs, -1024 ≤ v ∧ v ≤ 15359) :
    decSamples (pre ++ (wordBytes vs.length ++ vs.flatMap (fun s => wordBytes (s + 1024).toNat)) ++ post) pre.length =
     .ok (vs, pre.length + (2 + 2 * vs.length)) := by
  have h0 := wordAt_wordBytes vs.length hl pre (vs.flatMap (fun s => wordBytes (s + 1024).toNat) ++ post)
  have h1 := decWords_enc vs (pre ++ wordBytes vs.length) post h
  simp only [List.append_assoc] at h0 h1 ⊢
  have hlen : (pre ++ wordBytes vs.length).length = pre.length + 2 := by simp [wordBytes]
  rw [hlen] at h1
  rw [decSamples, decWord14_spec, if_neg (not_not.2 h0.1), if_neg (not_not.2 h0.2.1), h0.2.2]
  simp only [h1, List.map_map, Except.ok.injEq, Prod.mk.injEq]
  refine ⟨?_, by omega⟩
  conv_rhs => rw [← List.map_id vs]
  apply List.map_congr_left; intro v hv
  have := h v hv; simp only [Function.comp, id]; omega

/-- The bytes of a decodable value, wherever they stand, decode to it. -/
theorem decField_raw (fld : FieldName) (d : FieldDesc) (v : Value) (pre post : Frame) (h : Value.wf d v = true) :
    decField fld d (pre ++ rawValue d v ++ post) pre.length = .ok ([(fld, v)], pre.length + (rawValue d v).length) := by
  cases d <;> cases v <;> try (simp [Value.wf] at h; done)
  · rename_i v
    simp only [Value.wf, decide_eq_true_eq] at h
    have : ¬ (pre.length + 1 > (pre ++ [BitVec.ofInt 8 v] ++ post).length) := by simp
    simp only [rawValue]
    simp only [decField, decByte]
    rw [if_neg this]
    simp only [Except.map, Frame.at]
    simp [List.getD]; omega
  · rename_i v
    simp only [Value.wf, decide_eq_true_eq] at h
    have h0 := wordAt_wordBytes v.toNat (by omega) pre post
    simp only [decField, rawValue, decWord14_spec, if_neg (not_not.2 h0.1), if_neg (not_not.2 h0.2.1), h0.2.2, Except.map]
    rw [show ((v.toNat : Nat) : Int) = v by omega]; rfl
  · rename_i n cs
    simp only [Value.wf, Bool.and_eq_true, decide_eq_true_eq, List.all_eq_true] at h
    have hlen : (padText n ((cs.take n).map (BitVec.ofInt 8))).length = n := by
      simp only [padText, List.length_append, List.length_map, List.length_take, List.length_replicate]; omega
    simp only [rawValue]
    simp only [decField, decText]
    rw [if_neg (by simp only [List.length_append, hlen]; omega)]
    simp only [Except.map, hlen, List.append_assoc, List.drop_left]
    rw [List.take_append_of_le_length (by omega), List.take_of_length_le (by omega)]
    rw [List.take_of_length_le h.1, padText, List.filter_append]
    have hz : (List.replicate (n - (cs.map (BitVec.ofInt 8)).length) (0:Byte)).filter (fun b => b != 0) = [] := by
      rw [List.filter_eq_nil_iff]; intro a ha; rw [List.mem_replicate] at ha; simp [ha.2]
    rw [hz, List.append_nil, List.filter_eq_self.2, List.map_map]
    · congr 6
      conv_rhs => rw [← List.map_id cs]
      apply List.map_congr_left; intro c hc
      have := h.2 c hc; simp only [Function.comp, BitVec.toNat_ofInt, id]; omega
    · intro b hb; obtain ⟨c, hc, rfl⟩ := List.mem_map.1 hb
      have := h.2 c hc
      simp only [bne_iff_ne, ne_eq]; intro h0
      have h1 := congrArg BitVec.toNat h0; simp only [BitVec.toNat_ofInt, show (0 : Byte).toNat = 0 from rfl] at h1; omega
  · rename_i vs
    simp only [Value.wf, Bool.and_eq_true, decide_eq_true_eq, List.all_eq_true, sampleInRange] at h
    simp only [decField, rawValue]
    rw [decSamples_enc vs pre post h.1 h.2]
    simp only [Except.map, List.length_append, sampleBytes_length]; rfl

/-- A Marker is one byte. -/
theorem encMarker_length (cfg i) : (encMarker cfg i).length = 1 := by unfold encMarker; split <;> rfl

/-- An encodable value encodes to its bytes. -/
theorem encValue_raw (d : FieldDesc) (v : Value) (h : Value.encodable d v = true) : encValue d v = .ok (rawValue d v) := by
  cases d <;> cases v <;> try (simp [Value.encodable] at h; done)
  · simp only [Value.encodable, decide_eq_true_eq] at h
    rw [encValue, encByte, if_neg (by omega)]; rfl
  · simp only [Value.encodable, decide_eq_true_eq] at h
    rw [encValue, encWord14, if_neg (by omega)]; rfl
  · rename_i n cs
    have : ¬ ((cs.take n).any (fun c => decide (c < 1 ∨ c > 127)) = true) := by
      simp only [Value.encodable, List.all_eq_true, decide_eq_true_eq] at h
      simp only [List.any_eq_true, decide_eq_true_eq, not_exists, not_and]
      intro c hc; have := h c hc; omega
    rw [encValue, encText, if_neg this]; rfl
  · rename_i vs
    simp only [Value.encodable, Bool.and_eq_true, decide_eq_true_eq, List.all_eq_true, sampleInRange] at h
    rw [encValue, encSamples, encWord14, if_neg (by omega), encWords_ok vs h.2]; rfl

/-- A value of the right kind that is not encodable is out of range. -/
theorem encValue_err (d : FieldDesc) (v : Value) (hk : Value.hasKind d v = true) (h : Value.encodable d v = false) : encValue d v = .error .outOfRange := by
  cases d <;> cases v <;> try (simp [Value.hasKind] at hk; done)
  · simp only [Value.encodable, decide_eq_false_iff_not] at h
    rw [encValue, encByte, if_pos (by omega)]
  · simp only [Value.encodable, decide_eq_false_iff_not] at h
    rw [encValue, encWord14, if_pos (by omega)]
  · rename_i n cs
    have : ((cs.take n).any (fun c => decide (c < 1 ∨ c > 127)) = true) := by
      simp only [Value.encodable, List.all_eq_false, decide_eq_true_eq] at h
      obtain ⟨c, hc, h⟩ := h
      simp only [List.any_eq_true, decide_eq_true_eq]
      exact ⟨c, hc, by omega⟩
    rw [encValue, encText, if_pos this]
  · rename_i vs
    simp only [Value.encodable, Bool.and_eq_false_iff, decide_eq_false_iff_not, List.all_eq_false, sampleInRange, decide_eq_true_eq] at h
    by_cases hl : vs.length ≤ 16383
    · rw [encValue, encSamples, encWord14, if_neg (by omega), encWords_err vs]
      rcases h with h | ⟨v, hv, h⟩
      · exact absurd hl h
      · exact ⟨v, hv, by omega⟩
    · rw [encValue, encSamples, encWord14, if_pos (by omega)]

/-- The bytes of an encodable value have their high bit clear. -/
theorem rawValue_small (d v) (h : Value.encodable d v = true) : ∀ b ∈ rawValue d v, b.toNat ≤ 127 := by
  cases d <;> cases v <;> try (simp [Value.encodable] at h; done)
  · simp only [Value.encodable, decide_eq_true_eq] at h
    intro b hb; simp only [rawValue, List.mem_singleton] at hb; subst hb; simp only [BitVec.toNat_ofInt]; omega
  · simp only [Value.encodable, decide_eq_true_eq] at h
    exact wordBytes_small _ (by omega)
  · rename_i n cs
    simp only [Value.encodable, List.all_eq_true, decide_eq_true_eq] at h
    intro b hb; simp only [rawValue, padText, List.mem_append, List.mem_map, List.mem_replicate] at hb
    rcases hb with ⟨c, hc, rfl⟩ | ⟨_, rfl⟩
    · have := h c hc; simp only [BitVec.toNat_ofInt]; omega
    · simp
  · rename_i vs
    simp only [Value.encodable, Bool.and_eq_true, decide_eq_true_eq, List.all_eq_true, sampleInRange] at h
    intro b hb; simp only [rawValue, List.mem_append, List.mem_flatMap] at hb
    rcases hb with hb | ⟨v, hv, hb⟩
    · exact wordBytes_small _ h.1 b hb
    · have := h.2 v hv; exact wordBytes_small _ (by omega) b hb

/-- How many bytes a value takes (R104). -/
def rawLength : FieldDesc → Value → Nat
  | .marker, _ => 1
  | .byte, _ => 1
  | .word14, _ => 2
  | .fixedText n, _ => n
  | .sampleArray14, .samples vs => 2 + 2 * vs.length
  | .sampleArray14, _ => 0

/-- A value takes `rawLength` bytes. -/
theorem rawValue_length (d v) (h : Value.hasKind d v = true) : (rawValue d v).length = rawLength d v := by
  cases d <;> cases v <;> try (simp [Value.hasKind] at h; done)
  · rfl
  · rfl
  · simp only [rawValue, rawLength, padText, List.length_append, List.length_map, List.length_take, List.length_replicate]; omega
  · simp only [rawValue, rawLength, List.length_append, sampleBytes_length]; rfl

/-- Frames that agree on the first m bytes agree on each of them. -/
theorem getD_of_take_eq {f g : Frame} {m j : Nat} (h : g.take m = f.take m) (hj : j < m) : g.getD j 0 = f.getD j 0 := by
  have e : ∀ x : Frame, x.getD j 0 = (x.take m).getD j 0 := by
    intro x; simp only [List.getD, List.getElem?_take, if_pos hj]
  rw [e g, e f, h]

/-- A frame that agrees with f on its first m bytes has them. -/
theorem length_of_take_eq {f g : Frame} {m : Nat} (h : g.take m = f.take m) (hf : m ≤ f.length) : m ≤ g.length := by
  have := congrArg List.length h; simp only [List.length_take] at this; omega

/-- A 14-bit number is a decodable word. -/
theorem Value_word_wf {n : Nat} (h : n ≤ 16383) : Value.wf .word14 (.word n) = true := by simp [Value.wf]; omega

/-- What one turn of `decode` yields: nothing for a Marker, one decodable value otherwise. -/
theorem field_wf {fld d} {f : Frame} {off c o} (h : decField fld d f off = .ok (c, o)) :
    (d = .marker ∧ c = []) ∨ (d ≠ .marker ∧ ∃ v, c = [(fld, v)] ∧ Value.wf d v = true) := by
  cases d with
  | marker => left; simp only [decField, decMarker] at h; split at h <;> simp_all [Except.map]
  | byte =>
    right; refine ⟨by simp, ?_⟩
    simp only [decField, decByte] at h; split at h <;> simp [Except.map] at h
    refine ⟨_, h.1.symm, ?_⟩
    have := (Frame.at f off).isLt; simp [Value.wf]; omega
  | word14 =>
    right; refine ⟨by simp, ?_⟩
    simp only [decField] at h
    cases hw : decWord14 f off with
    | error e => simp [hw, Except.map] at h
    | ok p =>
      obtain ⟨w, o1⟩ := p
      obtain ⟨_, h2, h3, _⟩ := decWord14_ok_iff.1 hw
      simp [hw, Except.map] at h
      exact ⟨_, h.1.symm, Value_word_wf (h3 ▸ wordAt_le h2)⟩
  | fixedText n =>
    right; refine ⟨by simp, ?_⟩
    simp only [decField, decText] at h; split at h <;> simp [Except.map] at h
    refine ⟨_, h.1.symm, ?_⟩
    simp only [Value.wf, Bool.and_eq_true, decide_eq_true_eq, List.all_eq_true, List.mem_map, List.mem_filter, List.length_map]
    refine ⟨?_, ?_⟩
    · refine le_trans (List.length_filter_le _ _) ?_; simp
    · rintro _ ⟨c, hc, rfl⟩
      have h1 := c.isLt
      have : c.toNat ≠ 0 := fun h0 => by
        have : c = 0 := BitVec.eq_of_toNat_eq h0
        simp [this] at hc
      omega
  | sampleArray14 =>
    right; refine ⟨by simp, ?_⟩
    simp only [decField] at h
    cases hw : decSamples f off with
    | error e => simp [hw, Except.map] at h
    | ok p =>
      obtain ⟨vs, o1⟩ := p
      simp [hw, Except.map] at h
      refine ⟨_, h.1.symm, ?_⟩
      unfold decSamples at hw
      cases hl : decWord14 f off with
      | error e => simp [hl] at hw
      | ok p =>
        obtain ⟨n, o2⟩ := p
        simp only [hl] at hw
        obtain ⟨_, h2, h3, _⟩ := decWord14_ok_iff.1 hl
        cases hws : decWords n f o2 with
        | error e => simp [hws] at hw
        | ok q =>
          obtain ⟨ws, o3⟩ := q
          simp only [hws, Except.ok.injEq, Prod.mk.injEq] at hw
          obtain ⟨rfl, _⟩ := hw
          have key : ∀ (n : Nat) (off : Nat) (ws : List Nat) (o : Nat), decWords n f off = .ok (ws, o) → ws.length = n ∧ ∀ w ∈ ws, w ≤ 16383 := by
            intro n; induction n with
            | zero => intro off ws o h; simp [decWords] at h; simp [h.1]
            | succ n ih =>
              intro off ws o h
              simp only [decWords] at h
              cases hx : decWord14 f off with
              | error e => simp [hx] at h
              | ok p =>
                simp only [hx] at h
                cases hy : decWords n f p.2 with
                | error e => simp [hy] at h
                | ok q =>
                  simp only [hy, Except.ok.injEq, Prod.mk.injEq] at h
                  obtain ⟨rfl, _⟩ := h
                  obtain ⟨a, b⟩ := ih _ _ _ hy
                  obtain ⟨_, c2, c3, _⟩ := decWord14_ok_iff.1 hx
                  refine ⟨by simp [a], ?_⟩
                  intro w hw; rcases List.mem_cons.1 hw with rfl | hw
                  · exact c3 ▸ wordAt_le c2
                  · exact b w hw
          obtain ⟨k1, k2⟩ := key _ _ _ _ hws
          simp only [Value.wf, Bool.and_eq_true, decide_eq_true_eq, List.all_eq_true, sampleInRange, List.mem_map, List.length_map]
          refine ⟨by rw [k1, h3]; exact wordAt_le h2, ?_⟩
          rintro _ ⟨w, hw, rfl⟩; have := k2 w hw; omega

/-- The DEC instruction of a field runs `decField`. -/
theorem exec_decOp (fld d) (s : State) : exec (decOp fld d) s = .next (s.afterDec (decField fld d s.codec.rx s.codec.off)) := by
  cases d <;> rfl

/-- A byte is a decodable value. -/
theorem byteValue_wf (b : Byte) : Value.wf .byte (byteValue b) = true := by have := b.isLt; simp [Value.wf, byteValue]; omega

/-- A word is a decodable value. -/
theorem wordValue_wf (b : Word14) : Value.wf .word14 (wordValue b) = true := by have := b.isLt; simp [Value.wf, wordValue]; omega

/-- A well-formed text is a decodable value. -/
theorem textValue_wf {n} {cs : List Byte} (h : textWf n cs = true) : Value.wf (.fixedText n) (textValue cs) = true := by
  simp [textWf, Value.wf, textValue] at *
  refine ⟨h.1, fun c hc => ?_⟩
  have h0 := h.2 c hc
  have : c.toNat ≠ 0 := fun h' => h0 (BitVec.eq_of_toNat_eq h')
  have := c.isLt; omega

/-- A byte through the integers and back. -/
theorem ofInt_toNat_byte (b : Byte) : BitVec.ofInt 8 (b.toNat : Int) = b := by simp

/-- Codes through the integers and back. -/
theorem text_codes_roundtrip (cs : List Byte) : (cs.map (fun c => (c.toNat : Int))).map (BitVec.ofInt 8) = cs := by
  rw [List.map_map]
  conv_rhs => rw [← List.map_id cs]
  apply List.map_congr_left; intro c _; exact ofInt_toNat_byte c

/-- The same, composed. -/
theorem text_codes_comp (cs : List Byte) : List.map (BitVec.ofInt 8 ∘ fun c => (c.toNat : Int)) cs = cs := by rw [← List.map_map, text_codes_roundtrip]

/-- A well-formed sample list is a decodable value. -/
theorem samples_wf {vs : List Int} (h : samplesWf vs = true) : Value.wf .sampleArray14 (.samples vs) = true := h

end Sys2Proof
end

