-- ==== Sys2Proof/Laws/Memory.lean ====
section
/-! SUPPORT. The stream table: a read after a write, and the canonical form. -/

namespace Sys2Proof.Machine

open Sys2Proof

/-- Different keys have different places. -/
theorem keyIndex_injective {k k' : ChannelKey} (h : keyIndex k = keyIndex k') : k = k' := by
  cases k with
  | monitor p c =>
    cases k' with
    | monitor p' c' =>
      simp only [keyIndex] at h
      have hp : p.toNat = p'.toNat := by have := c.isLt; have := c'.isLt; omega
      have hc : c.toNat = c'.toNat := by omega
      rw [BitVec.eq_of_toNat_eq hp, BitVec.eq_of_toNat_eq hc]
    | scope q => simp only [keyIndex] at h; have := p.isLt; have := c.isLt; omega
  | scope q =>
    cases k' with
    | monitor p c => simp only [keyIndex] at h; have := p.isLt; have := c.isLt; omega
    | scope q' =>
      simp only [keyIndex] at h
      rw [BitVec.eq_of_toNat_eq (x := q) (y := q') (by omega)]

@[simp] theorem Memory.read_nil (k : ChannelKey) : Memory.read [] k = StreamRec.idle := rfl

theorem Memory.read_insert_same (k : ChannelKey) (r : StreamRec) :
    ∀ m : Memory, (∀ e ∈ m, e.1 ≠ k) → Memory.read (Memory.insert k r m) k = r
  | [], _ => by simp [Memory.insert, Memory.read]
  | e :: m, h => by
    unfold Memory.insert
    split
    · simp [Memory.read]
    · have he : e.1 ≠ k := h e (by simp)
      simp only [Memory.read, he, if_false]
      exact Memory.read_insert_same k r m (fun x hx => h x (by simp [hx]))

theorem Memory.read_insert_other (k k' : ChannelKey) (hk : k' ≠ k) (r : StreamRec) :
    ∀ m : Memory, Memory.read (Memory.insert k r m) k' = Memory.read m k'
  | [] => by simp [Memory.insert, Memory.read, Ne.symm hk]
  | e :: m => by
    unfold Memory.insert
    split
    · simp [Memory.read, Ne.symm hk]
    · simp only [Memory.read, Memory.read_insert_other k k' hk r m]

theorem Memory.read_filter_same (k : ChannelKey) :
    ∀ m : Memory, Memory.read (m.filter (fun e => e.1 != k)) k = StreamRec.idle
  | [] => rfl
  | e :: m => by
    by_cases h : e.1 = k
    · simpa [List.filter_cons, h] using Memory.read_filter_same k m
    · simpa [List.filter_cons, h, Memory.read] using Memory.read_filter_same k m

theorem Memory.read_filter_other (k k' : ChannelKey) (hk : k' ≠ k) :
    ∀ m : Memory, Memory.read (m.filter (fun e => e.1 != k)) k' = Memory.read m k'
  | [] => rfl
  | e :: m => by
    have ih := Memory.read_filter_other k k' hk m
    by_cases h : e.1 = k
    · have h' : e.1 ≠ k' := fun h'' => hk (h''.symm.trans h)
      simpa [List.filter_cons, h, Memory.read, h', Ne.symm hk] using ih
    · simp [h, Memory.read, ih]

/-- A read after a write to the same key gives the record written. -/
@[simp] theorem Memory.read_write_same (m : Memory) (k : ChannelKey) (r : StreamRec) :
    Memory.read (Memory.write m k r) k = r := by
  unfold Memory.write
  split
  · next h => rw [h]; exact Memory.read_filter_same k m
  · exact Memory.read_insert_same k r _ (by simp)

/-- A write leaves every other key alone. -/
theorem Memory.read_write_other (m : Memory) {k k' : ChannelKey} (hk : k' ≠ k) (r : StreamRec) :
    Memory.read (Memory.write m k r) k' = Memory.read m k' := by
  unfold Memory.write
  split
  · exact Memory.read_filter_other k k' hk m
  · simp only [Memory.read_insert_other k k' hk, Memory.read_filter_other k k' hk]

@[simp] theorem setStream_stream_same (s : State) (k : ChannelKey) (r : StreamRec) :
    (s.setStream k r).stream k = r := Memory.read_write_same _ _ _

theorem setStream_stream_other (s : State) {k k' : ChannelKey} (hk : k' ≠ k) (r : StreamRec) :
    (s.setStream k r).stream k' = s.stream k' := Memory.read_write_other _ hk _

theorem Memory.mem_insert {k : ChannelKey} {r : StreamRec} {e : ChannelKey × StreamRec} :
    ∀ {m : Memory}, e ∈ Memory.insert k r m → e = (k, r) ∨ e ∈ m
  | [], h => by simpa [Memory.insert] using h
  | x :: m, h => by
    unfold Memory.insert at h
    split at h
    · simpa using h
    · rcases List.mem_cons.1 h with h | h
      · exact .inr (by simp [h])
      · rcases Memory.mem_insert h with h | h
        · exact .inl h
        · exact .inr (by simp [h])

theorem Memory.insert_wf {k : ChannelKey} {r : StreamRec} (hr : r ≠ StreamRec.idle) :
    ∀ {m : Memory}, Memory.wf m → (∀ e ∈ m, e.1 ≠ k) → Memory.wf (Memory.insert k r m)
  | [], _, _ => by simp [Memory.insert, Memory.wf, hr]
  | x :: m, h, hk => by
    obtain ⟨hp, hi⟩ := h
    obtain ⟨hx, hp⟩ := List.pairwise_cons.1 hp
    unfold Memory.insert
    split
    · next hlt =>
      refine ⟨List.pairwise_cons.2 ⟨?_, List.pairwise_cons.2 ⟨hx, hp⟩⟩, ?_⟩
      · intro e he
        rcases List.mem_cons.1 he with rfl | he
        · exact hlt
        · exact Nat.lt_trans hlt (hx e he)
      · intro e he
        rcases List.mem_cons.1 he with rfl | he
        · exact hr
        · exact hi e he
    · next hlt =>
      have hne : keyIndex x.1 ≠ keyIndex k := fun h => hk x (by simp) (keyIndex_injective h)
      have ih := Memory.insert_wf hr (m := m) ⟨hp, fun e he => hi e (by simp [he])⟩ (fun e he => hk e (by simp [he]))
      refine ⟨List.pairwise_cons.2 ⟨?_, ih.1⟩, ?_⟩
      · intro e he
        rcases Memory.mem_insert he with rfl | he
        · show keyIndex x.1 < keyIndex k
          omega
        · exact hx e he
      · intro e he
        rcases List.mem_cons.1 he with rfl | he
        · exact hi e (by simp)
        · exact ih.2 e he

/-- Every write keeps the canonical form. -/
theorem Memory.write_wf {m : Memory} (h : Memory.wf m) (k : ChannelKey) (r : StreamRec) :
    Memory.wf (Memory.write m k r) := by
  have hf : Memory.wf (m.filter (fun e => e.1 != k)) :=
    ⟨h.1.sublist List.filter_sublist, fun e he => h.2 e (List.mem_filter.1 he).1⟩
  unfold Memory.write
  split
  · exact hf
  · next hr => exact Memory.insert_wf hr hf (by simp)

/-- The table of the reset state has the canonical form. -/
theorem reset_table_wf : Memory.wf State.reset.streams := by simp [State.reset, Memory.wf]

/-- In canonical form an entry's record is what its key reads as. -/
theorem Memory.read_eq_of_mem : ∀ {m : Memory}, Memory.wf m → ∀ {e}, e ∈ m → Memory.read m e.1 = e.2
  | x :: m, h, e, he => by
    obtain ⟨hp, hi⟩ := h
    obtain ⟨hx, hp⟩ := List.pairwise_cons.1 hp
    rcases List.mem_cons.1 he with rfl | he
    · simp [Memory.read]
    · have hne : x.1 ≠ e.1 := fun h => by have := hx e he; rw [h] at this; omega
      simp only [Memory.read, hne, if_false]
      exact Memory.read_eq_of_mem ⟨hp, fun y hy => hi y (by simp [hy])⟩ he

end Sys2Proof.Machine
end

