-- ==== Sys2Proof/Laws/Operations.lean ====
section
/-! SUPPORT. What each shared operation of the machine can do, said once. -/

namespace Sys2Proof.Machine

open Sys2Proof

/-- The two states of a reassembler. -/
theorem StreamStatus.cases (x : StreamStatus) : x = .idle ∨ x = .collecting := by cases x <;> simp

/-- All that stage 4 can do with a handler (R144). -/
theorem gated_cases (h : State → State) (s : State) :
    (s.gate = .matched ∧ gated h s = .next (h s)) ∨
    (s.gate ≠ .matched ∧ gated h s = .next (s.conclude .gated)) := by
  unfold gated
  by_cases hg : s.gate = .matched <;> simp [hg]

/-- All that `streamStart` does. -/
theorem streamStart_eq (k size s) : streamStart k size s =
  (s.setStream k { st := .collecting, declaredSize := size, cursor := 0, truncated := false, samples := [] }).conclude
    (if (s.stream k).st = .collecting then .streamRestarted else .streamStarted) := rfl

/-- All that `streamData` can do. -/
theorem streamData_cases (k : ChannelKey) (o : Nat) (vs : List Int) (s : State) :
   ((s.stream k).st = .idle ∧ streamData k o vs s = s.conclude .streamNotCollecting) ∨
   ((s.stream k).st = .collecting ∧ (s.stream k).truncated = true ∧ streamData k o vs s = s.conclude .streamPoisoned) ∨
   ((s.stream k).st = .collecting ∧ (s.stream k).truncated = false ∧ s.cfg.offsetPolicy = .rejectOnMismatch ∧ o ≠ (s.stream k).cursor ∧
     streamData k o vs s = s.conclude (.streamOffsetMismatch o (s.stream k).cursor)) ∨
   ((s.stream k).st = .collecting ∧ (s.stream k).truncated = false ∧ (s.cfg.offsetPolicy = .ignore ∨ o = (s.stream k).cursor) ∧
     (s.stream k).declaredSize < (s.stream k).cursor + vs.length ∧
     streamData k o vs s = (s.setStream k { s.stream k with truncated := true }).conclude .streamOverflow) ∨
   ((s.stream k).st = .collecting ∧ (s.stream k).truncated = false ∧ (s.cfg.offsetPolicy = .ignore ∨ o = (s.stream k).cursor) ∧
     (s.stream k).cursor + vs.length ≤ (s.stream k).declaredSize ∧
     streamData k o vs s = (s.setStream k { s.stream k with
        samples := (s.stream k).samples ++ vs, cursor := (s.stream k).cursor + vs.length }).conclude .streamAppended) := by
  unfold streamData
  rcases StreamStatus.cases (s.stream k).st with h | h
  · simp [h]
  · cases ht : (s.stream k).truncated
    · cases hp : s.cfg.offsetPolicy <;> by_cases ho : o = (s.stream k).cursor <;> by_cases hl : (s.stream k).declaredSize < (s.stream k).cursor + vs.length <;>
        simp [h, ht, ho, hl, Nat.le_of_not_lt]
    · simp [h, ht]

/-- All that `streamEnd` can do. -/
theorem streamEnd_cases (k : ChannelKey) (s : State) :
   ((s.stream k).st = .idle ∧ streamEnd k s = s.conclude .streamEndIdle) ∨
   ((s.stream k).st = .collecting ∧ (s.stream k).truncated = false ∧ (s.stream k).cursor = (s.stream k).declaredSize ∧
     streamEnd k s = ((s.setStream k StreamRec.idle).emit (.onStreamComplete k (s.stream k).samples)).conclude .streamComplete) ∨
   ((s.stream k).st = .collecting ∧ ((s.stream k).truncated = true ∨ (s.stream k).cursor ≠ (s.stream k).declaredSize) ∧
     streamEnd k s = (s.setStream k StreamRec.idle).conclude .streamIncomplete) := by
  unfold streamEnd
  rcases StreamStatus.cases (s.stream k).st with h | h
  · simp [h]
  · cases ht : (s.stream k).truncated
    · by_cases hc : (s.stream k).cursor = (s.stream k).declaredSize <;> simp [h, ht, hc]
    · simp [h, ht]

/-- START of either family. -/
theorem exec_startOf (k size s) : exec (startOf k size) s = gated (streamStart k size.toNat) s := by cases k <;> rfl

/-- DATA of either family. -/
theorem exec_dataOf (k o vs s) : exec (dataOf k o vs) s = gated (streamData k o.toNat vs) s := by cases k <;> rfl

/-- END of either family. -/
theorem exec_endOf (k s) : exec (endOf k) s = gated (streamEnd k) s := by cases k <;> rfl

/-- A handler runs when the gate is Matched. -/
theorem gated_matched {h s} (hs : s.gate = .matched) : gated h s = .next (h s) := by simp [gated, hs]

/-- A run cut in two. -/
theorem runInstrs_append : ∀ (a b : List Instr) (s t : State), runInstrs a s = .next t → runInstrs (a ++ b) s = runInstrs b t
  | [], b, s, t, h => by cases h; rfl
  | i :: a, b, s, t, h => by
    simp only [List.cons_append, runInstrs] at h ⊢
    cases he : exec i s with
    | next u => simp only [he] at h ⊢; exact runInstrs_append a b u t h
    | fault r => simp [he] at h
    | refused r => simp [he] at h

/-- A step that took an input ran under an admitted configuration. -/
theorem step_adm {s t} (hi : s.inbox ≠ []) (hs : step s = .next t) : s.cfg.admitted = true := by
  cases h : s.cfg.admitted with
  | true => rfl
  | false =>
    cases hx : s.inbox with
    | nil => exact absurd hx hi
    | cons a r => simp [step, hx, h] at hs

/-- TX_ENCODE only appends a result. -/
theorem tx_shape {s t k p} (h : exec (.txEncode k p) s = .next t) : ∃ x, t = {s with txOut := s.txOut ++ [x]} := by
  simp only [exec, execTxEncode] at h
  split at h <;> cases h <;> exact ⟨_, rfl⟩

end Sys2Proof.Machine
end

