-- ==== Sys2Proof/Laws/PerInstr.lean ====
section
/-! SUPPORT. Statements made for each instruction: `OfPayload`, the operands of a frame instruction are read back
from its payload record; `PayloadFits`, the payload record of a well-formed frame instruction is one that a decode
can yield. -/

namespace Sys2Proof.Laws.OfPayload

open Sys2Proof

/-- The operands are read back from the payload record (R144). -/
def Statement (i : Instr) : Prop := ∀ k, i.kind = some k → Instr.ofPayload k i.payload = i

theorem configuration (r : ConfigRecord) : Statement (.configuration r) := by
  intro k h; cases h
  simp [Instr.ofPayload, Instr.payload, Record.byte, Record.get?, byteValue]

theorem typeDef (p : Record) : Statement (.typeDef p) := by
  intro k h; cases h; rfl

theorem curveDef (c : CurveDescriptor) : Statement (.curveDef c) := by
  intro k h; cases h
  simp [Instr.ofPayload, Instr.payload, Record.byte, Record.get?, byteValue, textValue, Record.text, text_codes_comp]

theorem padDef (p : PadProperties) : Statement (.padDef p) := by
  intro k h; cases h
  simp [Instr.ofPayload, Instr.payload, Record.byte, Record.get?, byteValue, textValue, Record.text, text_codes_comp]

theorem ready (p : Record) : Statement (.ready p) := by
  intro k h; cases h; rfl

theorem monitorStart (p c : Byte) (size : Word14) : Statement (.monitorStart p c size) := by
  intro k h; cases h
  simp [Instr.ofPayload, Instr.payload, Record.byte, Record.get?, byteValue, wordValue, Record.word]

theorem monitorData (p c : Byte) (o : Word14) (vs : List Int) : Statement (.monitorData p c o vs) := by
  intro k h; cases h
  simp [Instr.ofPayload, Instr.payload, Record.byte, Record.get?, byteValue, wordValue, Record.word, Record.sampleList]

theorem monitorEnd (p c : Byte) : Statement (.monitorEnd p c) := by
  intro k h; cases h
  simp [Instr.ofPayload, Instr.payload, Record.byte, Record.get?, byteValue]

theorem scopeStart (q : Byte) (size : Word14) : Statement (.scopeStart q size) := by
  intro k h; cases h
  simp [Instr.ofPayload, Instr.payload, Record.byte, Record.get?, byteValue, wordValue, Record.word]

theorem scopeData (q : Byte) (o : Word14) (vs : List Int) : Statement (.scopeData q o vs) := by
  intro k h; cases h
  simp [Instr.ofPayload, Instr.payload, Record.byte, Record.get?, byteValue, wordValue, Record.word, Record.sampleList]

theorem scopeEnd (q : Byte) : Statement (.scopeEnd q) := by
  intro k h; cases h
  simp [Instr.ofPayload, Instr.payload, Record.byte, Record.get?, byteValue]

theorem decMarker : Statement (.decMarker) := by
  intro k h; cases h

theorem decByte (field : FieldName) : Statement (.decByte field) := by
  intro k h; cases h

theorem decWord14 (field : FieldName) : Statement (.decWord14 field) := by
  intro k h; cases h

theorem decText (field : FieldName) (n : Nat) : Statement (.decText field n) := by
  intro k h; cases h

theorem decSamples (field : FieldName) : Statement (.decSamples field) := by
  intro k h; cases h

theorem encMarker (index : Nat) : Statement (.encMarker index) := by
  intro k h; cases h

theorem encByte (v : Int) : Statement (.encByte v) := by
  intro k h; cases h

theorem encWord14 (v : Int) : Statement (.encWord14 v) := by
  intro k h; cases h

theorem encText (n : Nat) (codes : List Int) : Statement (.encText n codes) := by
  intro k h; cases h

theorem encSamples (vs : List Int) : Statement (.encSamples vs) := by
  intro k h; cases h

theorem disconnected : Statement (.disconnected) := by
  intro k h; cases h

theorem connected : Statement (.connected) := by
  intro k h; cases h

theorem hwReset : Statement (.hwReset) := by
  intro k h; cases h

theorem txEncode (kind : Kind) (payload : Record) : Statement (.txEncode kind payload) := by
  intro k h; cases h

end Sys2Proof.Laws.OfPayload

namespace Sys2Proof.Laws.PayloadFits

open Sys2Proof

/-- The payload record fits the kind's payload fields with decodable values (R17, R88 to R98). -/
def Statement (i : Instr) : Prop :=
  ∀ (cfg : Config) (k : Kind), i.wf cfg = true → i.kind = some k →
    Record.fits Value.wf (cfg.payloadFields k) i.payload = true

theorem configuration (r : ConfigRecord) : Statement (.configuration r) := by
  intro cfg k _ h; cases h
  simp [Config.payloadFields, Config.layout, frameLayout, headerFields, configurationPayload, Instr.payload, Record.fits,
    byteValue_wf]

theorem typeDef (p : Record) : Statement (.typeDef p) := by
  intro cfg k hw h; cases h; exact hw

theorem curveDef (c : CurveDescriptor) : Statement (.curveDef c) := by
  intro cfg k hw h; cases h
  simp only [Instr.wf] at hw
  simp [Config.payloadFields, Config.layout, frameLayout, headerFields, curvePayload, Instr.payload, Record.fits,
    byteValue_wf, textValue_wf hw]

theorem padDef (p : PadProperties) : Statement (.padDef p) := by
  intro cfg k hw h; cases h
  simp only [Instr.wf] at hw
  simp [Config.payloadFields, Config.layout, frameLayout, headerFields, padPayload, Instr.payload, Record.fits,
    byteValue_wf, textValue_wf hw]

theorem ready (p : Record) : Statement (.ready p) := by
  intro cfg k hw h; cases h; exact hw

theorem monitorStart (p c : Byte) (size : Word14) : Statement (.monitorStart p c size) := by
  intro cfg k _ h; cases h
  simp [Config.payloadFields, Config.layout, frameLayout, headerFields, monitorStartPayload, Instr.payload, Record.fits,
    byteValue_wf, wordValue_wf]

theorem monitorData (p c : Byte) (o : Word14) (vs : List Int) : Statement (.monitorData p c o vs) := by
  intro cfg k hw h; cases h
  simp only [Instr.wf] at hw
  simp [Config.payloadFields, Config.layout, frameLayout, headerFields, monitorDataPayload, Instr.payload, Record.fits,
    byteValue_wf, wordValue_wf, samples_wf hw]

theorem monitorEnd (p c : Byte) : Statement (.monitorEnd p c) := by
  intro cfg k _ h; cases h
  simp [Config.payloadFields, Config.layout, frameLayout, headerFields, monitorEndPayload, Instr.payload, Record.fits,
    byteValue_wf]

theorem scopeStart (q : Byte) (size : Word14) : Statement (.scopeStart q size) := by
  intro cfg k _ h; cases h
  simp [Config.payloadFields, Config.layout, frameLayout, headerFields, scopeStartPayload, Instr.payload, Record.fits,
    byteValue_wf, wordValue_wf]

theorem scopeData (q : Byte) (o : Word14) (vs : List Int) : Statement (.scopeData q o vs) := by
  intro cfg k hw h; cases h
  simp only [Instr.wf] at hw
  simp [Config.payloadFields, Config.layout, frameLayout, headerFields, scopeDataPayload, Instr.payload, Record.fits,
    byteValue_wf, wordValue_wf, samples_wf hw]

theorem scopeEnd (q : Byte) : Statement (.scopeEnd q) := by
  intro cfg k _ h; cases h
  simp [Config.payloadFields, Config.layout, frameLayout, headerFields, scopeEndPayload, Instr.payload, Record.fits,
    byteValue_wf]

theorem decMarker : Statement (.decMarker) := by
  intro cfg k _ h; cases h

theorem decByte (field : FieldName) : Statement (.decByte field) := by
  intro cfg k _ h; cases h

theorem decWord14 (field : FieldName) : Statement (.decWord14 field) := by
  intro cfg k _ h; cases h

theorem decText (field : FieldName) (n : Nat) : Statement (.decText field n) := by
  intro cfg k _ h; cases h

theorem decSamples (field : FieldName) : Statement (.decSamples field) := by
  intro cfg k _ h; cases h

theorem encMarker (index : Nat) : Statement (.encMarker index) := by
  intro cfg k _ h; cases h

theorem encByte (v : Int) : Statement (.encByte v) := by
  intro cfg k _ h; cases h

theorem encWord14 (v : Int) : Statement (.encWord14 v) := by
  intro cfg k _ h; cases h

theorem encText (n : Nat) (codes : List Int) : Statement (.encText n codes) := by
  intro cfg k _ h; cases h

theorem encSamples (vs : List Int) : Statement (.encSamples vs) := by
  intro cfg k _ h; cases h

theorem disconnected : Statement (.disconnected) := by
  intro cfg k _ h; cases h

theorem connected : Statement (.connected) := by
  intro cfg k _ h; cases h

theorem hwReset : Statement (.hwReset) := by
  intro cfg k _ h; cases h

theorem txEncode (kind : Kind) (payload : Record) : Statement (.txEncode kind payload) := by
  intro cfg k _ h; cases h

end Sys2Proof.Laws.PayloadFits
end

