-- ==== Sys2Proof/Tests/Slice0.lean ====
section
/-! SUPPORT. The model's own tests. Expected results are those of spec/95_test_vectors.md (the vector is named) or
worked by hand from the rule named. The theorems `witness_…` show a state and operands that meet the hypotheses of
the obligation they name. -/

namespace Sys2Proof.Tests

open Sys2Proof Sys2Proof.Machine

/-! ### Helpers -/

/-- The state an outcome goes on in, if it does. -/
def after : Host.Outcome State Fault Refusal → Option State
  | .next t => some t
  | .fault _ => none
  | .refused _ => none

/-- The refusal of an outcome, if it is one. -/
def refusal : Host.Outcome State Fault Refusal → Option Refusal
  | .next _ => none
  | .fault _ => none
  | .refused r => some r

/-- The fault of an outcome, if it is one. -/
def faultOf : Host.Outcome State Fault Refusal → Option Fault
  | .next _ => none
  | .fault r => some r
  | .refused _ => none

theorem next_with {o : Host.Outcome State Fault Refusal} (P : State → Bool) (h : (after o).any P = true) :
    ∃ t, o = .next t ∧ P t = true := by
  cases o with
  | next t => exact ⟨t, rfl, by simpa [after] using h⟩
  | fault r => simp [after] at h
  | refused r => simp [after] at h

theorem next_of {o : Host.Outcome State Fault Refusal} (h : (after o).isSome = true) : ∃ t, o = .next t := by
  cases o with
  | next t => exact ⟨t, rfl⟩
  | fault r => simp [after] at h
  | refused r => simp [after] at h

/-- The payload of vector S1's CONFIGURATION. -/
def s1 : ConfigRecord := ⟨0, 1, 1, 44, 8, 16⟩

/-- `SM` of 95_test_vectors.md. -/
def sm : State := { State.reset with gate := .matched, activeCfg := some s1 }

/-- A Mismatched state. -/
def mism : State := { State.reset with gate := .mismatched }

/-- The record {Collecting, size, number of samples, truncated, samples}. -/
def rec (size : Nat) (t : Bool) (vs : List Int) : StreamRec := ⟨.collecting, size, vs.length, t, vs⟩

/-- `sm` with the record of the key Scope(2). -/
def scope2 (r : StreamRec) : State := { sm with streams := [(.scope 2, r)] }

/-- `s` with one frame presented. -/
def given (s : State) (f : Frame) : State := { s with inbox := [.frameIn f] }

/-- The state in which a field operation reads `f` at `off`. -/
def reading (f : Frame) (off : Nat) : State := { State.reset with codec := { Codec.idle with rx := f, off := off } }

/-- `cfgREF` with the offset policy Ignore. -/
def ignoring : Config := { Config.reference with offsetPolicy := .ignore }

/-- "Linear". -/
def linear : List Byte := [0x4C, 0x69, 0x6E, 0x65, 0x61, 0x72]

/-- The PAD of V-F. -/
def pad : PadProperties :=
  { id := 0, type := 1, zoneCount := 2, name := [0x4B, 0x69, 0x63, 0x6B], scanTime := 10, maskTime := 30,
    retriggerTime := 20, curveId := 2, headSensor := 0, headSensitivity := 50, headThreshold := 15, headNote := 36,
    rimSensor := 1, rimSensitivity := 40, rimThreshold := 12, rimNote := 37 }

/-- The PAD frame of V-F. -/
def padFrame : Frame :=
  [0xF0, 0x66, 0x05, 0x00, 0x01, 0x02, 0x4B, 0x69, 0x63, 0x6B, 0, 0, 0, 0, 0, 0, 0, 0, 0, 0x0A, 0x1E, 0x14, 0x02,
   0x00, 0x32, 0x0F, 0x24, 0x01, 0x28, 0x0C, 0x25, 0xF7]

/-- The S1 frame. -/
def s1Frame : Frame := [0xF0, 0x66, 0x02, 0x00, 0x01, 0x01, 0x2C, 0x08, 0x10, 0xF7]

/-- SCOPE_DATA probeId=2 offset=0 samples=[10,20] (S2). -/
def dataFrame : Frame := [0xF0, 0x66, 0x21, 0x02, 0x00, 0x00, 0x00, 0x02, 0x08, 0x0A, 0x08, 0x14, 0xF7]

/-! ### WellFormed refuses what is ill-formed -/

/-- A name of ten codes is too long for CURVE (R90). -/
theorem test_wf_curve_name_too_long : Instr.wf Config.reference (.curveDef ⟨1, linear ++ [1, 2, 3, 4]⟩) = false := by
  decide
/-- A decoded text has no zero code (R114). -/
theorem test_wf_curve_name_zero : Instr.wf Config.reference (.curveDef ⟨1, [0x41, 0, 0x42]⟩) = false := by decide
/-- Fourteen codes are too long for PAD (R91). -/
theorem test_wf_pad_name_too_long :
    Instr.wf Config.reference (.padDef { pad with name := linear ++ linear ++ [1, 2] }) = false := by decide
/-- 15360 is beyond a Word14 (V-S). -/
theorem test_wf_sample_too_large : Instr.wf Config.reference (.scopeData 0 0 [15360]) = false := by decide
/-- −1025 is below a Word14 (V-S). -/
theorem test_wf_sample_too_small : Instr.wf Config.reference (.monitorData 0 0 0 [-1025]) = false := by decide
/-- 16384 samples are one too many (R87). -/
theorem test_wf_too_many_samples (vs : List Int) (h : vs.length = 16384) :
    Instr.wf Config.reference (.scopeData 0 0 vs) = false := by
  simp [Instr.wf, samplesWf, h]
/-- A TYPE payload without its name is ill-shaped. -/
theorem test_wf_type_field_missing : Instr.wf Config.reference (.typeDef [(.id, .byte 1)]) = false := by decide
/-- A TYPE payload whose id is no byte is ill-formed. -/
theorem test_wf_type_byte_range :
    Instr.wf Config.reference (.typeDef [(.id, .byte 256), (.name, .text [])]) = false := by decide
/-- READY carries no payload at the reference layout (R92). -/
theorem test_wf_ready_surplus : Instr.wf Config.reference (.ready [(.id, .byte 1)]) = false := by decide
/-- A record to encode has the kind's fields in order. -/
theorem test_wf_tx_wrong_name : Instr.wf Config.reference (.txEncode .scopeEnd [(.padId, .byte 1)]) = false := by decide
/-- A record to encode has values of the fields' kinds. -/
theorem test_wf_tx_wrong_kind : Instr.wf Config.reference (.txEncode .scopeEnd [(.probeId, .word 1)]) = false := by decide

/-- The reference configuration is admitted. -/
theorem test_admitted_reference : Config.reference.admitted = true := by decide
/-- Two kinds with one command byte (R8). -/
theorem test_admitted_command_clash :
    { Config.reference with cmds := { Config.reference.cmds with ready := 2 } }.admitted = false := by decide
/-- A command byte above 127 (R8). -/
theorem test_admitted_command_range :
    { Config.reference with cmds := { Config.reference.cmds with ready := 0x80 } }.admitted = false := by decide
/-- A local version above 127 (R9). -/
theorem test_admitted_version_range : { Config.reference with localVersion := ⟨0, 128, 1⟩ }.admitted = false := by decide
/-- Any u8 is a vendor byte (R7). -/
theorem test_admitted_vendor_any : { Config.reference with vendorId := 0xFF }.admitted = true := by decide
/-- W1 of R103: the Header comes first. -/
theorem test_admitted_header :
    { Config.reference with layoutReady := [(.start, .marker), (.endMarker, .marker)] }.admitted = false := by decide
/-- W2 of R103: the last field is a Marker. -/
theorem test_admitted_end :
    { Config.reference with layoutReady := headerFields ++ [(FieldName.id, FieldDesc.byte)] }.admitted = false := by decide
/-- W3 of R103: no Marker among the payload fields. -/
theorem test_admitted_inner_marker :
    { Config.reference with layoutReady := frameLayout [(.id, .marker)] }.admitted = false := by decide
/-- W5 of R103: names are unique. -/
theorem test_admitted_names :
    { Config.reference with layoutType := frameLayout [(.id, .byte), (.id, .byte)] }.admitted = false := by decide

/-! ### Decode: every kind on a word written out from its layout (S1, S2, V-F) -/

theorem test_decode_configuration : decode Config.reference s1Frame = .ok (.configuration s1) := by decide
theorem test_decode_type :
    decode Config.reference [0xF0, 0x66, 0x03, 0x01, 0x53, 0x6E, 0x61, 0x72, 0x65, 0, 0, 0, 0, 0xF7] =
      .ok (.typeDef [(.id, .byte 1), (.name, .text [0x53, 0x6E, 0x61, 0x72, 0x65])]) := by decide
/-- Embedded zero dropped, bytes above 127 and a wrong end byte accepted, surplus unread (V-F corner cases). -/
theorem test_decode_curve :
    decode Config.reference [0xF0, 0x66, 0x04, 0xFF, 0x41, 0, 0x80, 0, 0, 0, 0, 0, 0, 0x00, 0xAA] =
      .ok (.curveDef ⟨255, [0x41, 0x80]⟩) := by decide
theorem test_decode_pad : decode Config.reference padFrame = .ok (.padDef pad) := by decide
theorem test_decode_ready : decode Config.reference [0xF0, 0x66, 0x06, 0x00] = .ok (.ready []) := by decide
theorem test_decode_monitorStart :
    decode Config.reference [0xF0, 0x66, 0x10, 0x01, 0x00, 0x7F, 0x7E, 0xF7] = .ok (.monitorStart 1 0 16382) := by decide
theorem test_decode_monitorData :
    decode Config.reference [0xF0, 0x66, 0x11, 0x01, 0x00, 0x01, 0x02, 0x00, 0x02, 0x08, 0x1E, 0x08, 0x28, 0xF7] =
      .ok (.monitorData 1 0 130 [30, 40]) := by decide
theorem test_decode_monitorEnd :
    decode Config.reference [0xF0, 0x66, 0x12, 0x03, 0x01, 0xF7] = .ok (.monitorEnd 3 1) := by decide
theorem test_decode_scopeStart :
    decode Config.reference [0xF0, 0x66, 0x20, 0x02, 0x00, 0x04, 0xF7] = .ok (.scopeStart 2 4) := by decide
theorem test_decode_scopeData :
    decode Config.reference
      [0xF0, 0x66, 0x21, 0x00, 0x00, 0x00, 0x00, 0x04, 0x00, 0x00, 0x07, 0x7F, 0x08, 0x00, 0x0F, 0x7F, 0xF7] =
      .ok (.scopeData 0 0 [-1024, -1, 0, 1023]) := by decide
theorem test_decode_scopeEnd :
    decode Config.reference [0xF0, 0x66, 0x22, 0x02, 0xF7] = .ok (.scopeEnd 2) := by decide

/-- The field operations and the events have no word: they run as instructions (30_encoding.md R106). -/
theorem test_no_word_for_other_rows :
    ([.decMarker, .decByte .id, .decWord14 .size, .decText .name 9, .decSamples .samples, .encMarker 0, .encByte 1,
      .encWord14 1, .encText 9 [], .encSamples [], .disconnected, .connected, .hwReset, .txEncode .ready []] :
      List Instr).map (encode Config.reference) = List.replicate 14 none := by decide

/-- V-D: the frames that stages 1 to 3 drop. -/
theorem test_decode_rejects :
    decode Config.reference [0xF0, 0x66] = .error .notOurs ∧
    decode Config.reference [0x90, 0x24, 0x7F] = .error .notOurs ∧
    decode Config.reference [0xF0, 0x7E, 0x02, 0x00, 0xF7] = .error .notOurs ∧
    decode Config.reference [0xF0, 0x66, 0xF7] = .error (.unknownCommand 0xF7) ∧
    decode Config.reference [0xF0, 0x66, 0x10, 0x01, 0x00, 0x7F] = .error (.decodeFailed (.truncated 5)) ∧
    decode Config.reference [0xF0, 0x66, 0x10, 0x01, 0x00, 0x80, 0x04, 0xF7] =
      .error (.decodeFailed (.invalidEncoding 5)) ∧
    decode Config.reference [0xF0, 0x66, 0x21, 0x02, 0, 0, 0, 0x03, 0x08, 0x0A, 0x08, 0x14, 0xF7] =
      .error (.decodeFailed (.truncated 12)) ∧
    decode Config.reference [0xF0, 0x66, 0x06] = .error (.decodeFailed (.truncated 3)) := by decide

/-- The encoder writes the same words (V-F). -/
theorem test_encode_words :
    encode Config.reference (.configuration s1) = some s1Frame ∧
    encode Config.reference (.padDef pad) = some padFrame ∧
    encode Config.reference (.scopeData 2 0 [10, 20]) = some dataFrame ∧
    encode Config.reference (.ready []) = some [0xF0, 0x66, 0x06, 0xF7] := by decide

/-- A table word is read as f[0]·65536 + f[1]·256 + f[2] (R106). -/
theorem test_table_words :
    decodeTableWord 24 0xF06602 = some (.configuration ⟨0, 0, 0, 0, 0, 0⟩) ∧
    decodeTableWord 24 0xF06605 = some (.padDef ⟨0, 0, 0, [], 0, 0, 0, 0, 0, 0, 0, 0, 0, 0, 0, 0⟩) ∧
    decodeTableWord 24 0xF06621 = some (.scopeData 0 0 []) ∧
    decodeTableWord 24 0xF0667F = none := by decide

/-- A frame's word runs as the next instruction. -/
theorem test_withFetchWord :
    (after (step (State.reset.withFetchWord 24 0xF06602))).map (fun t => (t.gate, t.inbox, t.verdict)) =
      some (.mismatched, [], some (.versionMismatch ⟨0, 1, 1⟩ ⟨0, 0, 0⟩)) := by decide

/-! ### One step of each instruction -/

/-- S1. -/
theorem test_configuration_matches :
    after (step (given State.reset s1Frame)) =
      some { sm with events := [.onConfiguration s1], verdict := some .configMatched } := by decide
/-- V-G: a newer patch is a mismatch. -/
theorem test_configuration_mismatch :
    after (exec (.configuration ⟨0, 1, 2, 44, 8, 16⟩) State.reset) =
      some { mism with
        events := [.onVersionMismatch ⟨0, 1, 1⟩ ⟨0, 1, 2⟩], verdict := some (.versionMismatch ⟨0, 1, 1⟩ ⟨0, 1, 2⟩) } := by
  decide
/-- P1, steps 2 and 4. -/
theorem test_type :
    (after (exec (.typeDef [(.id, .byte 1)]) State.reset)).map (fun t => (t.events, t.verdict)) = some ([], some .gated) ∧
    (after (exec (.typeDef [(.id, .byte 1)]) sm)).map (fun t => (t.events, t.verdict)) =
      some ([.onType [(.id, .byte 1)]], some .delivered) := by decide
/-- V-DEF. -/
theorem test_curve :
    (after (exec (.curveDef ⟨2, linear⟩) sm)).map (fun t => (t.events, t.verdict)) =
      some ([.onCurve ⟨2, linear⟩], some .delivered) := by decide
/-- V-DEF and P4, step 2. -/
theorem test_pad :
    (after (exec (.padDef pad) sm)).map (fun t => (t.events, t.verdict)) = some ([.onPad pad], some .delivered) ∧
    (after (exec (.padDef pad) mism)).map (fun t => (t.events, t.verdict)) = some ([], some .gated) := by decide
/-- V-DEF. -/
theorem test_ready :
    (after (exec (.ready []) sm)).map (fun t => (t.events, t.verdict)) = some ([.onReady], some .delivered) := by decide
/-- V-ST7: a restart throws the old samples away. -/
theorem test_monitorStart :
    (after (exec (.monitorStart 3 1 1) { sm with streams := [(.monitor 3 1, rec 2 false [7])] })).map
      (fun t => (t.streams, t.verdict)) = some ([(.monitor 3 1, rec 1 false [])], some .streamRestarted) := by decide
/-- V-ST8: Monitor(2,1) is idle while Monitor(2,0) collects. -/
theorem test_monitorData :
    (after (exec (.monitorData 2 1 0 [1]) { sm with streams := [(.monitor 2 0, rec 1 false [])] })).map
      (fun t => (t.streams, t.verdict)) = some ([(.monitor 2 0, rec 1 false [])], some .streamNotCollecting) := by decide
/-- V-ST3: a stream of size zero. -/
theorem test_monitorEnd :
    (after (exec (.monitorEnd 3 1) { sm with streams := [(.monitor 3 1, rec 0 false [])] })).map
      (fun t => (t.streams, t.events, t.verdict)) =
      some ([], [.onStreamComplete (.monitor 3 1) []], some .streamComplete) := by decide
/-- S2, step 1. -/
theorem test_scopeStart :
    (after (exec (.scopeStart 2 4) sm)).map (fun t => (t.streams, t.verdict)) =
      some ([(.scope 2, rec 4 false [])], some .streamStarted) := by decide
/-- S2, step 2, and V-ST1, step 3. -/
theorem test_scopeData :
    (after (step (given (scope2 (rec 4 false [])) dataFrame))).map (fun t => (t.streams, t.verdict)) =
      some ([(.scope 2, rec 4 false [10, 20])], some .streamAppended) ∧
    (after (exec (.scopeData 2 2 [3]) (scope2 (rec 2 false [1, 2])))).map (fun t => (t.streams, t.verdict)) =
      some ([(.scope 2, rec 2 true [1, 2])], some .streamOverflow) := by decide
/-- V-ST5: an offset mismatch leaves the record, and Ignore takes the frame. -/
theorem test_scopeData_offset :
    (after (exec (.scopeData 2 2 [30, 40]) (scope2 (rec 4 false [])))).map (fun t => (t.streams, t.verdict)) =
      some ([(.scope 2, rec 4 false [])], some (.streamOffsetMismatch 2 0)) ∧
    (after (exec (.scopeData 2 2 [30, 40]) { scope2 (rec 4 false []) with cfg := ignoring })).map
      (fun t => (t.streams, t.verdict)) = some ([(.scope 2, rec 4 false [30, 40])], some .streamAppended) := by decide
/-- V-ST1, step 5, and V-ST4. -/
theorem test_scopeEnd :
    (after (exec (.scopeEnd 2) (scope2 (rec 2 true [1, 2])))).map (fun t => (t.streams, t.events, t.verdict)) =
      some ([], [], some .streamIncomplete) ∧
    (after (exec (.scopeEnd 2) (scope2 (rec 4 false [10, 20])))).map (fun t => (t.streams, t.events, t.verdict)) =
      some ([], [], some .streamIncomplete) := by decide

/-- V-B. -/
theorem test_decMarker :
    (after (exec .decMarker (reading [0x55] 0))).map (fun t => (t.codec.off, t.codec.cells, t.codec.err)) =
      some (1, [], none) := by decide
theorem test_decByte :
    (after (exec (.decByte .id) (reading [0xFF] 0))).map (fun t => (t.codec.off, t.codec.cells, t.codec.err)) =
      some (1, [(.id, .byte 255)], none) := by decide
/-- V-W: the bounds check comes first. -/
theorem test_decWord14 :
    (after (exec (.decWord14 .size) (reading [0x01, 0x01] 0))).map (fun t => (t.codec.off, t.codec.cells)) =
      some (2, [(.size, .word 129)]) ∧
    (after (exec (.decWord14 .size) (reading [0xFF] 0))).map (fun t => t.codec.err) = some (some (.truncated 0)) := by
  decide
/-- V-T. -/
theorem test_decText :
    (after (exec (.decText .name 9) (reading [0x61, 0, 0x62, 0, 0, 0, 0, 0, 0] 0))).map
      (fun t => (t.codec.off, t.codec.cells)) = some (9, [(.name, .text [0x61, 0x62])]) := by decide
/-- V-S. -/
theorem test_decSamples :
    (after (exec (.decSamples .samples) (reading [0x00, 0x01, 0x08, 0x0A, 0x08, 0x14] 0))).map
      (fun t => (t.codec.off, t.codec.cells)) = some (4, [(.samples, .samples [10])]) ∧
    (after (exec (.decSamples .samples) (reading [0x00, 0x03, 0x08, 0x0A, 0x08, 0x14, 0xF7, 0x00] 0))).map
      (fun t => t.codec.err) = some (some (.invalidEncoding 6)) := by decide
theorem test_encMarker :
    (after (exec (.encMarker 0) State.reset)).map (fun t => t.codec.tx) = some [0xF0] ∧
    (after (exec (.encMarker 9) State.reset)).map (fun t => t.codec.tx) = some [0xF7] := by decide
theorem test_encByte :
    (after (exec (.encByte 127) State.reset)).map (fun t => (t.codec.tx, t.codec.err)) = some ([0x7F], none) ∧
    (after (exec (.encByte 128) State.reset)).map (fun t => (t.codec.tx, t.codec.err)) =
      some ([], some .outOfRange) := by decide
theorem test_encWord14 :
    (after (exec (.encWord14 2047) State.reset)).map (fun t => t.codec.tx) = some [0x0F, 0x7F] ∧
    (after (exec (.encWord14 16384) State.reset)).map (fun t => t.codec.err) = some (some .outOfRange) := by decide
/-- V-T: the cut-off code is not checked. -/
theorem test_encText :
    (after (exec (.encText 2 [0x41, 0x42, 0xC9]) State.reset)).map (fun t => t.codec.tx) = some [0x41, 0x42] ∧
    (after (exec (.encText 9 [0x41, 0, 0x42]) State.reset)).map (fun t => t.codec.err) = some (some .outOfRange) := by
  decide
/-- V-S. -/
theorem test_encSamples :
    (after (exec (.encSamples [-1024, -1, 0, 1023]) State.reset)).map (fun t => t.codec.tx) =
      some [0x00, 0x04, 0x00, 0x00, 0x07, 0x7F, 0x08, 0x00, 0x0F, 0x7F] := by decide

/-- V-E: nothing is delivered, every record and the gate are at reset. -/
theorem test_disconnected :
    after (exec .disconnected (scope2 (rec 4 false [10, 20]))) = some { State.reset with verdict := some .cleared } := by
  decide
theorem test_connected : after (exec .connected sm) = some { sm with verdict := some .noOp } := by decide
theorem test_hwReset :
    after (exec .hwReset (scope2 (rec 4 false [10, 20]))) = some { State.reset with verdict := some .resetDone } := by
  decide
/-- P7, step 1, and the refused encode of V-F. -/
theorem test_txEncode :
    (after (exec (.txEncode .monitorStart [(.padId, .byte 1), (.channelId, .byte 0), (.size, .word 4)]) State.reset)).map
      (fun t => t.txOut) = some [.frame [0xF0, 0x66, 0x10, 0x01, 0x00, 0x00, 0x04, 0xF7]] ∧
    (after (exec (.txEncode .curve [(.id, .byte 128), (.name, .text [0x78])]) State.reset)).map (fun t => t.txOut) =
      some [.refused .encodeOutOfRange] := by decide
/-- The verdict codes at the edges of the classes (60_exceptions.md R230, R231). -/
theorem test_severity :
    Verdict.severity .resetDone = .normal ∧ Verdict.severity .notOurs = .foreign ∧
    Verdict.severity (.decodeInvalidEncoding 0) = .malformed ∧
    Verdict.severity (.versionMismatch ⟨0, 0, 0⟩ ⟨0, 0, 0⟩) = .denied ∧
    Verdict.severity .streamIncomplete = .streamFault ∧ Verdict.severity .encodeOutOfRange = .refusedEncode := by decide
/-- The flags of R39. -/
theorem test_flags : sm.matched = true ∧ mism.matched = false ∧ (scope2 (rec 2 true [])).truncated (.scope 2) = true ∧
    (scope2 (rec 2 true [])).truncated (.scope 3) = false := by decide

/-! ### Witnesses: states and operands that meet the hypotheses of the obligations -/

/-- `sm` with 4 samples declared for Scope(2) and 2 collected. -/
def half : State := scope2 (rec 4 false [10, 20])

/-- The payload of SCOPE_START. -/
def startPayload : Record := [(.probeId, .byte 2), (.size, .word 4)]

/-- A record under CURVE's whole layout, every value at an edge of the domain of R122. -/
def curveRecord : Record := [(.vendor, .byte 0), (.command, .byte 127), (.id, .byte 127), (.name, .text [1, 127])]

/-- A record under SCOPE_DATA's whole layout, with the edges of R87. -/
def dataRecord : Record :=
  [(.vendor, .byte 0x66), (.command, .byte 0x21), (.probeId, .byte 2), (.offset, .word 16383),
   (.samples, .samples [-1024, 15359])]

theorem half_good : half.Good := by
  have hr : ∀ k, half.stream k = (if .scope 2 = k then rec 4 false [10, 20] else StreamRec.idle) := fun k => rfl
  refine ⟨by decide, fun k => ?_, fun h => absurd rfl h, by decide, fun r h => by cases h; decide⟩
  rw [hr k]
  split
  · exact ⟨by decide, by decide, by decide, by decide, by decide⟩
  · exact ⟨by decide, by decide, by decide, fun _ => rfl, by decide⟩

theorem witness_DecMarkerOnlyAdvances_present : (reading [1, 2] 1).codec.off + 1 ≤ (reading [1, 2] 1).codec.rx.length := by
  decide
theorem witness_DecMarkerOnlyAdvances_absent : (reading [1, 2] 2).codec.rx.length < (reading [1, 2] 2).codec.off + 1 := by
  decide
theorem witness_DecByteReadsVerbatim_present : (reading [1, 0xFF] 1).codec.off < (reading [1, 0xFF] 1).codec.rx.length := by
  decide
theorem witness_DecByteReadsVerbatim_absent : (reading [1, 2] 2).codec.rx.length ≤ (reading [1, 2] 2).codec.off := by
  decide
theorem witness_DecWord14Unpacks_absent : ¬ wordPresent (reading [0xFF] 0).codec.rx (reading [0xFF] 0).codec.off := by
  decide
theorem witness_DecWord14Unpacks_highBit :
    wordPresent (reading [0, 0x80] 0).codec.rx (reading [0, 0x80] 0).codec.off ∧
    ¬ wordClear (reading [0, 0x80] 0).codec.rx (reading [0, 0x80] 0).codec.off := by decide
theorem witness_DecWord14Unpacks_clear :
    wordPresent (reading [0x7F, 0x7F] 0).codec.rx (reading [0x7F, 0x7F] 0).codec.off ∧
    wordClear (reading [0x7F, 0x7F] 0).codec.rx (reading [0x7F, 0x7F] 0).codec.off ∧
    wordAt [0x7F, 0x7F] 0 = 16383 := by decide
theorem witness_DecTextDropsEveryZero_present :
    (reading [0, 0x41, 0] 1).codec.off + 2 ≤ (reading [0, 0x41, 0] 1).codec.rx.length := by decide
theorem witness_DecTextDropsEveryZero_absent :
    (reading [0, 0x41, 0] 1).codec.rx.length < (reading [0, 0x41, 0] 1).codec.off + 3 := by decide
theorem witness_DecSamplesReadsBiasedWords_noLength : ¬ wordPresent [0x00] 0 := by decide
theorem witness_DecSamplesReadsBiasedWords_badLength :
    wordPresent [0x80, 2, 8, 10] 0 ∧ ¬ wordClear [0x80, 2, 8, 10] 0 := by decide
theorem witness_DecSamplesReadsBiasedWords_absentWord :
    let f : Frame := [0, 3, 8, 10, 8, 20, 0xF7]
    wordPresent f 0 ∧ wordClear f 0 ∧ 2 < wordAt f 0 ∧
    (∀ i, i < 2 → wordPresent f (0 + 2 + 2 * i) ∧ wordClear f (0 + 2 + 2 * i)) ∧ ¬ wordPresent f (0 + 2 + 2 * 2) := by
  decide
theorem witness_DecSamplesReadsBiasedWords_badWord :
    let f : Frame := [0, 2, 8, 10, 0x88, 20]
    wordPresent f 0 ∧ wordClear f 0 ∧ 1 < wordAt f 0 ∧
    (∀ i, i < 1 → wordPresent f (0 + 2 + 2 * i) ∧ wordClear f (0 + 2 + 2 * i)) ∧
    wordPresent f (0 + 2 + 2 * 1) ∧ ¬ wordClear f (0 + 2 + 2 * 1) := by decide
theorem witness_DecSamplesReadsBiasedWords_allWords :
    let f : Frame := [0, 2, 0x10, 0, 0x7F, 0x7F]
    wordPresent f 0 ∧ wordClear f 0 ∧
    (∀ i, i < wordAt f 0 → wordPresent f (0 + 2 + 2 * i) ∧ wordClear f (0 + 2 + 2 * i)) := by decide
theorem witness_EncByteMarshalsSevenBits : (0x7F : Byte).toNat ≤ 127 ∧ ((128 : Int) < 0 ∨ 127 < (128 : Int)) ∧
    ((-1 : Int) < 0 ∨ 127 < (-1 : Int)) := by decide
theorem witness_EncWord14Packs : (0x7F : Byte).toNat ≤ 127 ∧ (0 : Int) ≤ 16383 ∧ (16383 : Int) ≤ 16383 ∧
    ((-1 : Int) < 0 ∨ 16383 < (-1 : Int)) ∧ ((16384 : Int) < 0 ∨ 16383 < (16384 : Int)) := by decide
theorem witness_EncTextCutsChecksAndPads_kept : ∀ c ∈ ([1, 127, 200] : List Int).take 2, 1 ≤ c ∧ c ≤ 127 := by decide
theorem witness_EncTextCutsChecksAndPads_refused : ∃ c ∈ ([1, 0, 200] : List Int).take 2, c < 1 ∨ 127 < c := by decide
theorem witness_EncSamplesWritesBiasedWords_inRange :
    ([-1024, 15359] : List Int).length ≤ 16383 ∧ ∀ v ∈ ([-1024, 15359] : List Int), -1024 ≤ v ∧ v ≤ 15359 := by decide
theorem witness_EncSamplesWritesBiasedWords_sample : ∃ v ∈ ([15360] : List Int), v < -1024 ∨ 15359 < v := by decide
theorem witness_EncSamplesWritesBiasedWords_tooMany : 16383 < (List.replicate 16384 (0 : Int)).length := by
  rw [List.length_replicate]; decide
theorem witness_FieldOperationsReadAndWriteOnlyTheCodec :
    half.cfg = State.reset.cfg ∧ half.codec = State.reset.codec ∧
    Instr.decText .name 9 = decOp .name (.fixedText 9) ∧ encOp .byte (.byte 300) = some (.encByte 300) := by decide
theorem witness_EncodeIsItsFieldProgram :
    Record.fits Value.hasKind (Config.reference.layout .curve) curveRecord = true := by decide
theorem witness_EncodeThenDecodeIsIdentity :
    Record.fits Value.inDomain (Config.reference.layout .curve) curveRecord = true ∧
    Record.fits Value.inDomain (Config.reference.layout .scopeData) dataRecord = true := by decide
theorem witness_ReencodingAnEncodedFrameIsIdentity :
    encodeLayout Config.reference (frameLayout curvePayload)
      [(.vendor, .byte 0x66), (.command, .byte 4), (.id, .byte 3), (.name, .text [69, 120, 112, 111, 110, 101, 110, 116, 105, 97, 108])] =
      .ok [0xF0, 0x66, 4, 3, 0x45, 0x78, 0x70, 0x6F, 0x6E, 0x65, 0x6E, 0x74, 0x69, 0xF7] := by decide
theorem witness_EndMarkerAndSurplusAreUnchecked :
    FieldLayout.wf (frameLayout []) = true ∧
    decodeLayout (frameLayout []) [0xF0, 0x66, 6, 0xF7] =
      .ok ([(.vendor, .byte 0x66), (.command, .byte 6)], [0xF0, 0x66, 6, 0xF7].length) := by decide
theorem witness_DecodeDependsOnItsPrefixOnly :
    decodeLayout (frameLayout []) [0xF0, 0x66, 6, 0xF7, 1] = .ok ([(.vendor, .byte 0x66), (.command, .byte 6)], 4) ∧
    3 < 4 := by decide
theorem witness_EncodedFramesAreSevenBitBetweenMarkers :
    FieldLayout.wf (Config.reference.layout .scopeData) = true ∧
    encodeLayout Config.reference (Config.reference.layout .scopeData) dataRecord =
      .ok [0xF0, 0x66, 0x21, 2, 0x7F, 0x7F, 0, 2, 0, 0, 0x7F, 0x7F, 0xF7] := by decide
/-- V-F: one transmitted frame of each kind whose layout the source fixes. -/
theorem witness_EncodedFrameLengths :
    txEncode Config.reference .configuration (Instr.configuration s1).payload = .ok s1Frame ∧
    txEncode Config.reference .curve (Instr.curveDef ⟨2, linear⟩).payload =
      .ok [0xF0, 0x66, 4, 2, 0x4C, 0x69, 0x6E, 0x65, 0x61, 0x72, 0, 0, 0, 0xF7] ∧
    txEncode Config.reference .pad (Instr.padDef pad).payload = .ok padFrame ∧
    txEncode Config.reference .monitorStart (Instr.monitorStart 3 1 0).payload = .ok [0xF0, 0x66, 0x10, 3, 1, 0, 0, 0xF7] ∧
    txEncode Config.reference .monitorData (Instr.monitorData 1 0 2 [30, 40]).payload =
      .ok [0xF0, 0x66, 0x11, 1, 0, 0, 2, 0, 2, 8, 0x1E, 8, 0x28, 0xF7] ∧
    txEncode Config.reference .monitorEnd (Instr.monitorEnd 3 1).payload = .ok [0xF0, 0x66, 0x12, 3, 1, 0xF7] ∧
    txEncode Config.reference .scopeStart startPayload = .ok [0xF0, 0x66, 0x20, 2, 0, 4, 0xF7] ∧
    txEncode Config.reference .scopeData (Instr.scopeData 0 0 []).payload = .ok [0xF0, 0x66, 0x21, 0, 0, 0, 0, 0, 0xF7] ∧
    txEncode Config.reference .scopeEnd (Instr.scopeEnd 2).payload = .ok [0xF0, 0x66, 0x22, 2, 0xF7] := by decide
theorem witness_DecodeOfEncodeIsTheInstruction :
    Config.reference.admitted = true ∧ Instr.wf Config.reference (.curveDef ⟨255, [1, 255]⟩) = true ∧
    Instr.kind (.curveDef ⟨255, [1, 255]⟩) ≠ none := by decide
theorem witness_DecodedInstructionsAreWellFormed_HeaderSelectsTheKind :
    Config.reference.admitted = true ∧ decode Config.reference dataFrame = .ok (.scopeData 2 0 [10, 20]) := by decide
theorem witness_StepRunsTheDecodedInstruction :
    (given half dataFrame).cfg.admitted = true ∧ (given half dataFrame).inbox = .frameIn dataFrame :: [] ∧
    decode (given half dataFrame).cfg dataFrame = .ok (.scopeData 2 0 [10, 20]) ∧
    Instr.wf (given half dataFrame).cfg (.scopeData 2 0 [10, 20]) = true := by decide
theorem witness_StepRunsEventsAndRequests : half.cfg.admitted = true ∧
    ({ half with inbox := [.disconnected] } : State).inbox = .disconnected :: [] ∧
    ({ half with inbox := [.connected] } : State).inbox = .connected :: [] ∧
    ({ half with inbox := [.hwReset] } : State).inbox = .hwReset :: [] ∧
    ({ half with inbox := [.txEncode .scopeStart startPayload] } : State).inbox =
      .txEncode .scopeStart startPayload :: [] := by decide
theorem witness_IdleStepHoldsTheState : half.inbox = [] ∧
    ({ given half dataFrame with cfg := { Config.reference with localVersion := ⟨0, 128, 1⟩ } } : State).cfg.admitted =
      false ∧
    ({ given half dataFrame with cfg := { Config.reference with localVersion := ⟨0, 128, 1⟩ } } : State).inbox ≠ [] := by
  decide
/-- No input runs under a local version above 127 (R9). -/
theorem test_step_fatal :
    faultOf (step { given half dataFrame with cfg := { Config.reference with localVersion := ⟨0, 128, 1⟩ } }) =
      some .fatalConfiguration := by decide
/-- Frames run under a vendor byte above 127 (R7, R141, R147). -/
theorem test_step_vendor_above_127 :
    (after (step { given State.reset [0xF0, 0x80, 0x02, 0x00, 0x01, 0x01, 0x2C, 0x08, 0x10, 0xF7] with
      cfg := { Config.reference with vendorId := 0x80 } })).map (fun t => (t.gate, t.verdict)) =
      some (.matched, some .configMatched) := by decide
/-- Under a vendor byte above 127 every transmit is refused (R213, R118). -/
theorem test_txEncode_vendor_above_127 :
    (after (exec (.txEncode .scopeStart startPayload) { half with cfg := { Config.reference with vendorId := 0x80 } })).map
      (fun t => t.txOut) = some [.refused .encodeOutOfRange] := by decide
/-- TX_ENCODE of a record in another order than its layout's. -/
theorem test_txEncode_illShaped :
    refusal (exec (.txEncode .scopeStart [(.size, .word 4), (.probeId, .byte 2)]) half) = some .illShapedRecord := by
  decide
theorem witness_ForeignFramesAreDiscarded : Config.reference.admitted = true ∧ ([0xF0, 0x66] : Frame).length < 3 ∧
    ([0x90, 0x66, 2] : Frame).getD 0 0 ≠ Config.reference.startMarker ∧
    ([0xF0, 0x7E, 2] : Frame).getD 1 0 ≠ Config.reference.vendorId := by decide
theorem witness_UnknownCommandsAreDiscarded :
    (given half [0xF0, 0x66, 0x7F]).inbox =
      .frameIn (Config.reference.startMarker :: Config.reference.vendorId :: 0x7F :: []) :: [] ∧
    ∀ k, Config.reference.cmd k ≠ 0x7F := ⟨by decide, fun k => by cases k <;> decide⟩
theorem witness_MalformedFramesAreDropped_truncated :
    let f : Frame := Config.reference.startMarker :: Config.reference.vendorId :: Config.reference.cmd .ready :: []
    half.cfg.admitted = true ∧ (given half f).inbox = .frameIn f :: [] ∧
    decodeLayout (Config.reference.layout .ready) f = .error (.truncated 3) := by decide
theorem witness_MalformedFramesAreDropped_invalid :
    let f : Frame := Config.reference.startMarker :: Config.reference.vendorId :: Config.reference.cmd .monitorStart ::
      [1, 0, 0, 0x84, 0xF7]
    half.cfg.admitted = true ∧ (given half f).inbox = .frameIn f :: [] ∧
    decodeLayout (Config.reference.layout .monitorStart) f = .error (.invalidEncoding 5) := by decide
theorem witness_OnlyWord14KindsRaiseInvalidEncoding :
    decodeLayout (Config.reference.layout .scopeData) [0xF0, 0x66, 0x21, 2, 0, 0, 0, 1, 0x88, 1, 0xF7] =
      .error (.invalidEncoding 8) := by decide
theorem witness_StepIsTotal : half.cfg.admitted = true ∧
    ∀ k p, ({ half with inbox := [.txEncode .scopeStart startPayload] } : State).inbox.head? = some (.txEncode k p) →
      Record.fits Value.hasKind (half.cfg.payloadFields k) p = true :=
  ⟨by decide, fun k p h => by cases h; decide⟩
theorem witness_StepTakesOneInputAndEmitsAtMostOneEvent :
    (given sm padFrame).inbox ≠ [] ∧ ∃ t, step (given sm padFrame) = .next t :=
  ⟨by decide, next_of (by decide)⟩
theorem witness_SilentVerdictsChangeNothing :
    ∃ t, step (given half dataFrame) = .next t ∧
      decide (t.verdict.any (fun v => v.code ∈ [7, 16, 17, 32, 33, 48, 49, 64, 65, 66, 68])) = true :=
  next_with _ (by decide)
theorem witness_ConfigurationDecidesTheGate :
    State.reset.gate = .unknown ∧ s1.versionMajor = State.reset.cfg.localVersion.major ∧
    s1.versionMinor = State.reset.cfg.localVersion.minor ∧ s1.versionPatch = State.reset.cfg.localVersion.patch ∧
    (2 : Byte) ≠ State.reset.cfg.localVersion.patch ∧ mism.gate ≠ .unknown := by decide
theorem witness_GateTransitionTable_reset :
    ∃ t, step { half with inbox := [.hwReset] } = .next t := next_of (by decide)
theorem witness_GateTransitionTable_configuration :
    decode State.reset.cfg s1Frame = .ok (.configuration s1) ∧ State.reset.gate = .unknown ∧
    ⟨s1.versionMajor, s1.versionMinor, s1.versionPatch⟩ = State.reset.cfg.localVersion ∧
    ∃ t, step (given State.reset s1Frame) = .next t := ⟨by decide, by decide, by decide, next_of (by decide)⟩
theorem witness_GateTransitionTable_mismatch :
    decode State.reset.cfg [0xF0, 0x66, 2, 0, 1, 2, 44, 8, 16, 0xF7] = .ok (.configuration ⟨0, 1, 2, 44, 8, 16⟩) ∧
    (⟨0, 1, 2⟩ : VersionTriple) ≠ State.reset.cfg.localVersion ∧
    ∃ t, step (given State.reset [0xF0, 0x66, 2, 0, 1, 2, 44, 8, 16, 0xF7]) = .next t :=
  ⟨by decide, by decide, next_of (by decide)⟩
theorem witness_GateTransitionTable_other :
    Input.frameIn s1Frame ≠ .disconnected ∧ Input.frameIn s1Frame ≠ .hwReset ∧ sm.gate ≠ .unknown ∧
    ∃ t, step (given sm s1Frame) = .next t := ⟨by decide, by decide, by decide, next_of (by decide)⟩
theorem witness_GateTransitionTable_noEffect :
    decode sm.cfg s1Frame = .ok (.configuration s1) ∧ sm.gate ≠ .unknown ∧ (∃ t, step (given sm s1Frame) = .next t) ∧
    ∃ t, step { sm with inbox := [.connected] } = .next t := ⟨by decide, by decide, next_of (by decide), next_of (by decide)⟩
theorem witness_UntrustedFramesAreDropped : Instr.kind (.ready []) = some .ready ∧ Kind.ready ≠ .configuration ∧
    State.reset.gate ≠ .matched ∧ mism.gate ≠ .matched ∧ sm.gate = .matched := by decide
theorem witness_MismatchedGateIgnoresEveryFrame : (given mism s1Frame).cfg.admitted = true ∧
    (given mism s1Frame).gate = .mismatched ∧ (given mism s1Frame).inbox = .frameIn s1Frame :: [] := by decide
theorem witness_HandshakeIsTerminalUntilReset :
    (given mism s1Frame).gate ≠ .unknown ∧ .disconnected ∉ (given mism s1Frame).inbox ∧
    .hwReset ∉ (given mism s1Frame).inbox ∧ ∃ t, Host.Core.run Sys2Proof.core 2 (given mism s1Frame) = .next t :=
  ⟨by decide, by decide, by decide, next_of (by decide)⟩
theorem witness_DefinitionCommandsDeliver_StartOpensTheStream : sm.gate = .matched := rfl
theorem witness_DataAppendsInCheckOrder_idle : sm.gate = .matched ∧ (sm.stream (.scope 2)).st = .idle := by decide
theorem witness_DataAppendsInCheckOrder_poisoned :
    (scope2 (rec 2 true [])).gate = .matched ∧
    ((scope2 (rec 2 true [])).stream (.scope 2)).st = .collecting ∧
    ((scope2 (rec 2 true [])).stream (.scope 2)).truncated = true := by decide
theorem witness_DataAppendsInCheckOrder_offset :
    half.gate = .matched ∧ (half.stream (.scope 2)).st = .collecting ∧ (half.stream (.scope 2)).truncated = false ∧
    half.cfg.offsetPolicy = .rejectOnMismatch ∧ (0 : Word14).toNat ≠ (half.stream (.scope 2)).cursor := by decide
theorem witness_DataAppendsInCheckOrder_overflow :
    half.gate = .matched ∧ (half.stream (.scope 2)).st = .collecting ∧ (half.stream (.scope 2)).truncated = false ∧
    (2 : Word14).toNat = (half.stream (.scope 2)).cursor ∧
    (half.stream (.scope 2)).declaredSize < (half.stream (.scope 2)).cursor + ([30, 40, 50] : List Int).length ∧
    ({ half with cfg := ignoring } : State).cfg.offsetPolicy = .ignore := by decide
theorem witness_DataAppendsInCheckOrder_append :
    half.gate = .matched ∧ (half.stream (.scope 2)).st = .collecting ∧ (half.stream (.scope 2)).truncated = false ∧
    (2 : Word14).toNat = (half.stream (.scope 2)).cursor ∧
    (half.stream (.scope 2)).cursor + ([30, 40] : List Int).length ≤ (half.stream (.scope 2)).declaredSize := by decide
theorem witness_EndDeliversOnlyTheComplete_idle : sm.gate = .matched ∧ (sm.stream (.scope 2)).st = .idle := by decide
theorem witness_EndDeliversOnlyTheComplete_complete :
    let s := scope2 (rec 2 false [10, 20])
    s.gate = .matched ∧ (s.stream (.scope 2)).st = .collecting ∧ (s.stream (.scope 2)).truncated = false ∧
    (s.stream (.scope 2)).cursor = (s.stream (.scope 2)).declaredSize := by decide
theorem witness_EndDeliversOnlyTheComplete_truncated :
    let s := scope2 (rec 2 true [10, 20])
    s.gate = .matched ∧ (s.stream (.scope 2)).st = .collecting ∧ (s.stream (.scope 2)).truncated = true := by decide
theorem witness_EndDeliversOnlyTheComplete_short :
    half.gate = .matched ∧ (half.stream (.scope 2)).st = .collecting ∧
    (half.stream (.scope 2)).cursor ≠ (half.stream (.scope 2)).declaredSize := by decide
theorem witness_CompleteStreamIsDeliveredInOrder_offsets :
    let frames : List (Word14 × List Int) := [(0, [10, 20]), (2, [30, 40])]
    sm.gate = .matched ∧ (samplesOf frames).length = (4 : Word14).toNat ∧
    ∀ pre x post, frames = pre ++ x :: post → x.1.toNat = (samplesOf pre).length := by
  refine ⟨rfl, by decide, fun pre x post h => ?_⟩
  rcases pre with _ | ⟨a, _ | ⟨b, c⟩⟩
  · cases h; decide
  · cases h; decide
  · simp at h
theorem witness_CompleteStreamIsDeliveredInOrder_ignore :
    ({ sm with cfg := ignoring } : State).gate = .matched ∧
    (samplesOf [(9, [10, 20]), (9, [30, 40])]).length = (4 : Word14).toNat ∧
    ({ sm with cfg := ignoring } : State).cfg.offsetPolicy = .ignore := by decide
theorem witness_NoPartialStreamIsDelivered :
    sm.gate = .matched ∧ (samplesOf [(0, [10, 20])]).length < (4 : Word14).toNat := by decide
theorem witness_OverflowPoisonsUntilTheEnd :
    (scope2 (rec 2 true [1])).gate = .matched ∧ ((scope2 (rec 2 true [1])).stream (.scope 2)).st = .collecting ∧
    ((scope2 (rec 2 true [1])).stream (.scope 2)).truncated = true := by decide
theorem witness_DuplicateDataIsDropped :
    half.gate = .matched ∧ half.cfg.offsetPolicy = .rejectOnMismatch ∧ (half.stream (.scope 2)).st = .collecting ∧
    (half.stream (.scope 2)).truncated = false ∧ (2 : Word14).toNat = (half.stream (.scope 2)).cursor ∧
    ([30, 40] : List Int) ≠ [] ∧
    (half.stream (.scope 2)).cursor + ([30, 40] : List Int).length ≤ (half.stream (.scope 2)).declaredSize := by decide
theorem witness_StreamCommandsSeeOnlyTheirKey :
    StreamCommand (.scope 2) (.scopeData 2 2 [30]) ∧
    half.cfg = ({ half with streams := [(.monitor 2 0, rec 1 false []), (.scope 2, rec 4 false [10, 20])] } : State).cfg ∧
    half.stream (.scope 2) =
      ({ half with streams := [(.monitor 2 0, rec 1 false []), (.scope 2, rec 4 false [10, 20])] } : State).stream
        (.scope 2) := ⟨.data 2 [30], by decide, by decide⟩
theorem witness_StreamsOfDifferentKeysCommute :
    ChannelKey.scope 2 ≠ .monitor 2 0 ∧ StreamCommand (.scope 2) (.scopeData 2 2 [30]) ∧
    StreamCommand (.monitor 2 0) (.monitorStart 2 0 1) ∧ Memory.wf half.streams :=
  ⟨by decide, .data 2 [30], .start 1, by decide⟩
theorem witness_EqualReadsMeanEqualTables :
    Memory.wf half.streams ∧ ∀ k, Memory.read half.streams k = Memory.read (scope2 (rec 4 false [10, 20])).streams k :=
  ⟨by decide, fun _ => rfl⟩
theorem witness_TransmitAnswersFrameOrRefusal_frame :
    half.cfg.admitted = true ∧
    half.cfg.vendorId.toNat ≤ 127 ∧
    Record.fits Value.hasKind (half.cfg.payloadFields .scopeStart) startPayload = true ∧
    Record.fits Value.encodable (half.cfg.payloadFields .scopeStart) startPayload = true := by decide
theorem witness_TransmitAnswersFrameOrRefusal_refused :
    half.cfg.admitted = true ∧
    Record.fits Value.hasKind (half.cfg.payloadFields .scopeStart) [(.probeId, .byte 128), (.size, .word 16384)] = true ∧
    Record.fits Value.encodable (half.cfg.payloadFields .scopeStart) [(.probeId, .byte 128), (.size, .word 16384)] =
      false := by decide
theorem witness_TransmitAnswersFrameOrRefusal_vendor :
    let s : State := { half with cfg := { Config.reference with vendorId := 128 } }
    s.cfg.admitted = true ∧ 127 < s.cfg.vendorId.toNat ∧
    Record.fits Value.hasKind (s.cfg.payloadFields .scopeStart) startPayload = true := by decide
theorem witness_IllShapedRecordsAreRefused : half.cfg.admitted = true ∧
    Record.fits Value.hasKind (half.cfg.payloadFields .scopeStart) [(.size, .word 4), (.probeId, .byte 2)] = false := by
  decide
theorem witness_TransmitIsIndependentOfReceive :
    Instr.kind (.scopeEnd 2) ≠ none ∧ (∃ t, exec (.scopeEnd 2) half = .next t) ∧
    ∃ u, exec (.txEncode .scopeStart startPayload) half = .next u :=
  ⟨by decide, next_of (by decide), next_of (by decide)⟩
theorem witness_LoopbackRunsTheTransmittedPayload : half.cfg.admitted = true ∧
    half.cfg.vendorId.toNat ≤ 127 ∧
    Record.fits Value.inDomain (half.cfg.payloadFields .scopeStart) startPayload = true := by decide
theorem witness_EveryStepKeepsTheInvariants :
    (given half dataFrame).Good ∧ ∃ t, step (given half dataFrame) = .next t :=
  ⟨⟨half_good.table, half_good.records, half_good.closed, half_good.active, half_good.version⟩, next_of (by decide)⟩
theorem witness_EveryInstructionKeepsTheInvariants :
    Instr.wf half.cfg (.scopeData 2 2 [-1024, 15359]) = true ∧ half.Good ∧
    ∃ t, exec (.scopeData 2 2 [-1024, 15359]) half = .next t :=
  ⟨by decide, half_good, next_of (by decide)⟩

end Sys2Proof.Tests
end

section
/-! PROOFS. The reset state (10_state.md R43). -/

namespace Sys2Proof.Machine

/-- R34, R43: no key has an entry at reset, so that every key reads IDLE. -/
@[simp] theorem reset_stream (k : ChannelKey) : State.reset.stream k = StreamRec.idle :=
  Memory.read_nil k

/-- Settles O57: gate and configuration are fields of the reset state, and its empty stream table reads IDLE. -/
theorem resetValues : Obligations.ResetValues :=
  ⟨rfl, rfl, reset_stream⟩

end Sys2Proof.Machine
end

section
/-! PROOFS. The rules of the field operations: the storage after a DEC operation whose field decodes or not, and
after an ENC operation whose value is encodable or not (40_field_codec.md R110, R116). -/

namespace Sys2Proof.Machine

/-! ### DEC operations -/

/-- R110: a field that decodes joins its cell to the record and moves the cursor. -/
theorem exec_decOp_of_ok {field : FieldName} {d : FieldDesc} {s : State} {cell : Record} {off : Nat}
    (h : decField field d s.codec.rx s.codec.off = .ok (cell, off)) :
    exec (decOp field d) s =
      .next { s with codec := { s.codec with off := off, cells := s.codec.cells ++ cell } } := by
  rw [exec_decOp, h]; rfl

/-- R110: a field that does not decode leaves its error alone. -/
theorem exec_decOp_of_error {field : FieldName} {d : FieldDesc} {s : State} {e : DecodeError}
    (h : decField field d s.codec.rx s.codec.off = .error e) :
    exec (decOp field d) s =
      .next { s with codec := { s.codec with err := some (CodecError.ofDecode e) } } := by
  rw [exec_decOp, h]; rfl

/-! ### What each field decodes to -/

section
variable {field : FieldName} {f : Frame} {off : Nat}

theorem decField_marker_of_present (h : off + 1 ≤ f.length) :
    decField field .marker f off = .ok ([], off + 1) := by
  rw [decField, decMarker, if_neg (Nat.not_lt.2 h)]; rfl

theorem decField_marker_of_absent (h : f.length < off + 1) :
    decField field .marker f off = .error (.truncated off) := by
  rw [decField, decMarker, if_pos h]; rfl

theorem decField_byte_of_present (h : off < f.length) :
    decField field .byte f off = .ok ([(field, .byte (f[off]'h).toNat)], off + 1) := by
  have hat : Frame.at f off = f[off]'h := List.getD_eq_getElem f 0 h
  rw [decField, decByte, if_neg (Nat.not_lt.2 h), hat]; rfl

theorem decField_byte_of_absent (h : f.length ≤ off) :
    decField field .byte f off = .error (.truncated off) := by
  rw [decField, decByte, if_pos (Nat.lt_succ_of_le h)]; rfl

theorem decWord14_of_absent (hp : ¬ wordPresent f off) : decWord14 f off = .error (.truncated off) := by
  rw [decWord14_spec, if_pos hp]

theorem decWord14_of_unclear (hp : wordPresent f off) (hc : ¬ wordClear f off) :
    decWord14 f off = .error (.invalidEncoding off) := by
  rw [decWord14_spec, if_neg (not_not.2 hp), if_pos hc]

theorem decWord14_of_clear (hp : wordPresent f off) (hc : wordClear f off) :
    decWord14 f off = .ok (wordAt f off, off + 2) :=
  decWord14_ok_iff.2 ⟨hp, hc, rfl, rfl⟩

theorem decField_word14_of_error {e : DecodeError} (h : decWord14 f off = .error e) :
    decField field .word14 f off = .error e := by
  rw [decField, h]; rfl

theorem decField_word14_of_ok {w off' : Nat} (h : decWord14 f off = .ok (w, off')) :
    decField field .word14 f off = .ok ([(field, .word w)], off') := by
  rw [decField, h]; rfl

/-- Dropping the zero bytes is dropping the zero codes (R114). -/
theorem map_toNat_filter_ne_zero (bs : Frame) :
    (bs.filter (fun b => b != 0)).map (fun b => (b.toNat : Int)) =
      (bs.map (fun b => (b.toNat : Int))).filter (fun c => decide (c ≠ 0)) := by
  have hzero : ∀ b : Byte, (b != 0) = decide ((b.toNat : Int) ≠ 0) := fun b => by
    rw [Bool.eq_iff_iff]; simp [← BitVec.toNat_inj]
  rw [List.filter_map]
  exact congrArg _ (List.filter_congr fun b _ => hzero b)

theorem decField_text_of_present {n : Nat} (h : off + n ≤ f.length) :
    decField field (.fixedText n) f off =
      .ok ([(field, .text ((((f.drop off).take n).map (fun b => (b.toNat : Int))).filter
        (fun c => decide (c ≠ 0))))], off + n) := by
  rw [decField, decText, if_neg (Nat.not_lt.2 h), ← map_toNat_filter_ne_zero]; rfl

theorem decField_text_of_absent {n : Nat} (h : f.length < off + n) :
    decField field (.fixedText n) f off = .error (.truncated off) := by
  rw [decField, decText, if_pos h]; rfl

/-- R115: an error of the length word is the error of the whole field. -/
theorem decField_samples_of_count_error {e : DecodeError} (h : decWord14 f off = .error e) :
    decField field .sampleArray14 f off = .error e := by
  simp only [decField, decSamples, h, Except.map]

/-- R115: after the length word, an error of a sample word is the error of the whole field. -/
theorem decField_samples_of_word_error {count off' : Nat} {e : DecodeError}
    (hcount : decWord14 f off = .ok (count, off')) (hwords : decWords count f off' = .error e) :
    decField field .sampleArray14 f off = .error e := by
  simp only [decField, decSamples, hcount, hwords, Except.map]

/-- R115: the samples are the words less 1024. -/
theorem decField_samples_of_words {count off' fin : Nat} {ws : List Nat}
    (hcount : decWord14 f off = .ok (count, off')) (hwords : decWords count f off' = .ok (ws, fin)) :
    decField field .sampleArray14 f off =
      .ok ([(field, .samples (ws.map (fun w : Nat => (w : Int) - 1024)))], fin) := by
  simp only [decField, decSamples, hcount, hwords, Except.map]

end

/-! ### ENC operations -/

/-- The ENC instruction of a value runs `encValue`. -/
theorem exec_encOp {d : FieldDesc} {v : Value} {i : Instr} (hi : encOp d v = some i) (s : State) :
    exec i s = .next (s.afterEnc (encValue d v)) := by
  cases d <;> cases v <;> cases hi <;> rfl

/-- Only a value of its descriptor's kind has an ENC instruction. -/
theorem hasKind_of_encOp {d : FieldDesc} {v : Value} {i : Instr} (hi : encOp d v = some i) :
    Value.hasKind d v = true := by
  cases d <;> cases v <;> cases hi <;> rfl

/-- R116: an encodable value appends its bytes. -/
theorem exec_encOp_of_encodable {d : FieldDesc} {v : Value} {i : Instr} (hi : encOp d v = some i)
    (h : Value.encodable d v = true) (s : State) :
    exec i s = .next { s with codec := { s.codec with tx := s.codec.tx ++ rawValue d v } } := by
  rw [exec_encOp hi, encValue_raw d v h]; rfl

/-- R116: a value that is not encodable raises OutOfRange and appends nothing. -/
theorem exec_encOp_of_not_encodable {d : FieldDesc} {v : Value} {i : Instr} (hi : encOp d v = some i)
    (h : ¬ Value.encodable d v = true) (s : State) :
    exec i s = .next { s with codec := { s.codec with err := some .outOfRange } } := by
  rw [exec_encOp hi, encValue_err d v (hasKind_of_encOp hi) (Bool.eq_false_iff.2 h)]; rfl

/-! ### Which values are encodable, and the bytes of a text -/

theorem encodable_byte_iff (v : Int) : Value.encodable .byte (.byte v) = true ↔ 0 ≤ v ∧ v ≤ 127 := by
  simp only [Value.encodable, decide_eq_true_eq]

theorem encodable_word_iff (v : Int) : Value.encodable .word14 (.word v) = true ↔ 0 ≤ v ∧ v ≤ 16383 := by
  simp only [Value.encodable, decide_eq_true_eq]

theorem encodable_text_iff (n : Nat) (t : List Int) :
    Value.encodable (.fixedText n) (.text t) = true ↔ ∀ c ∈ t.take n, 1 ≤ c ∧ c ≤ 127 := by
  simp only [Value.encodable, List.all_eq_true, decide_eq_true_eq]

theorem encodable_samples_iff (vs : List Int) :
    Value.encodable .sampleArray14 (.samples vs) = true ↔
      vs.length ≤ 16383 ∧ ∀ v ∈ vs, -1024 ≤ v ∧ v ≤ 15359 := by
  simp only [Value.encodable, sampleInRange, Bool.and_eq_true, List.all_eq_true, decide_eq_true_eq]

/-- The bytes of a text, by their values: the kept codes, then zeros (R86, R120). -/
theorem rawValue_text_toNat {n : Nat} {t : List Int} (h : ∀ c ∈ t.take n, 1 ≤ c ∧ c ≤ 127) :
    (rawValue (.fixedText n) (.text t)).map (fun b => (b.toNat : Int)) =
      t.take n ++ List.replicate (n - t.length) 0 := by
  have hkept : ((t.take n).map (BitVec.ofInt 8)).map (fun b => (b.toNat : Int)) = t.take n := by
    rw [List.map_map]
    refine (List.map_congr_left fun c hc => ?_).trans (List.map_id _)
    have := h c hc
    simp only [Function.comp, BitVec.toNat_ofInt, id]; omega
  have hpad : n - ((t.take n).map (BitVec.ofInt 8)).length = n - t.length := by
    rw [List.length_map, List.length_take]; omega
  rw [rawValue, padText, List.map_append, hkept, hpad, List.map_replicate]; rfl

/-- Every ENC_MARKER emits one delimiter byte (R117). -/
theorem encMarker_eq (cfg : Config) (i : Nat) :
    encMarker cfg i = [if i = 0 then cfg.startMarker else cfg.endMarker] := by
  unfold encMarker; split <;> rfl

end Sys2Proof.Machine
end

section
/-! PROOFS. The ten field operations as instructions (40_field_codec.md R111 to R115, R117 to R121). -/

namespace Sys2Proof.Machine

/-- Settles O1: DEC_MARKER is the DEC operation of a Marker field, under any name. -/
theorem decMarkerOnlyAdvances : Obligations.DecMarkerOnlyAdvances := by
  intro s
  refine ⟨fun h => ?_, fun h =>
    exec_decOp_of_error (field := .start) (d := .marker) (decField_marker_of_absent h)⟩
  have hexec := exec_decOp_of_ok (field := .start) (d := .marker) (decField_marker_of_present h)
  rwa [List.append_nil] at hexec

/-- Settles O2: the byte at the cursor is read as a number, whatever its high bit. -/
theorem decByteReadsVerbatim : Obligations.DecByteReadsVerbatim := fun _ _ =>
  ⟨fun h => exec_decOp_of_ok (d := .byte) (decField_byte_of_present h),
   fun h => exec_decOp_of_error (d := .byte) (decField_byte_of_absent h)⟩

/-- Settles O3: the three outcomes of `decWord14_spec`. -/
theorem decWord14Unpacks : Obligations.DecWord14Unpacks := fun _ _ =>
  ⟨fun hp => exec_decOp_of_error (d := .word14) (decField_word14_of_error (decWord14_of_absent hp)),
   fun hp hc => exec_decOp_of_error (d := .word14) (decField_word14_of_error (decWord14_of_unclear hp hc)),
   fun hp hc => ⟨wordAt_le hc,
     exec_decOp_of_ok (d := .word14) (decField_word14_of_ok (decWord14_of_clear hp hc))⟩⟩

/-- Settles O4: dropping zero bytes and dropping zero codes agree. -/
theorem decTextDropsEveryZero : Obligations.DecTextDropsEveryZero := fun _ _ n =>
  ⟨fun h => exec_decOp_of_ok (d := .fixedText n) (decField_text_of_present h),
   fun h => exec_decOp_of_error (d := .fixedText n) (decField_text_of_absent h)⟩

/-- Settles O5: the length word decides first; then the loop stops at its first fault, or reads every word. -/
theorem decSamplesReadsBiasedWords : Obligations.DecSamplesReadsBiasedWords := by
  rintro s field f off rfl rfl
  refine ⟨fun hp => ?absent, fun hp hc => ?unclear, fun hp hc => ?counted⟩
  case absent =>
    have hfield := decField_samples_of_count_error (field := field) (decWord14_of_absent hp)
    exact exec_decOp_of_error hfield
  case unclear =>
    have hfield := decField_samples_of_count_error (field := field) (decWord14_of_unclear hp hc)
    exact exec_decOp_of_error hfield
  case counted =>
    have hcount := decWord14_of_clear hp hc
    refine ⟨fun j hj hbefore => ?_, fun hall => ?_⟩
    · obtain ⟨habsent, hunclear⟩ := decWords_of_first_fault _ _ _ j hj hbefore
      have hfault {e} := decField_samples_of_word_error (field := field) (e := e) hcount
      exact ⟨fun hpj => exec_decOp_of_error (hfault (habsent hpj)),
        fun hpj hcj => exec_decOp_of_error (hfault (hunclear hpj hcj))⟩
    · have hfield := decField_samples_of_words (field := field) hcount (decWords_of_present _ _ _ hall)
      rw [List.map_map] at hfield
      exact exec_decOp_of_ok hfield

/-- Settles O6: one delimiter byte, and ENC_MARKER has no error. -/
theorem encMarkerEmitsDelimiter : Obligations.EncMarkerEmitsDelimiter := fun s i => by
  rw [← encMarker_eq]; rfl

/-- Settles O7: 0..127 is what a Byte field can encode. -/
theorem encByteMarshalsSevenBits : Obligations.EncByteMarshalsSevenBits := by
  intro s
  refine ⟨fun b hb => ?_, fun v hv => ?_⟩
  · have henc := (encodable_byte_iff b.toNat).2 (by omega)
    rw [exec_encOp_of_encodable (d := .byte) rfl henc s, rawValue, ofInt_toNat_byte]
  · exact exec_encOp_of_not_encodable (d := .byte) (v := .byte v) rfl
      ((encodable_byte_iff v).not.2 (by omega)) s

/-- Settles O8: the two halves of a word are its bytes, and every value 0..16383 has two halves. -/
theorem encWord14Packs : Obligations.EncWord14Packs := by
  intro s
  refine ⟨fun h l hh hl => ?_, fun v h0 hmax => ?_, fun v hv => ?_⟩
  · have henc := (encodable_word_iff (128 * h.toNat + l.toNat : Nat)).2 (by omega)
    rw [exec_encOp_of_encodable (d := .word14) rfl henc s, rawValue, Int.toNat_natCast, wordBytes_eq h l hh hl]
  · obtain ⟨h, l, hh, hl, hsplit⟩ := word_split v.toNat (by omega)
    exact ⟨h, l, hh, hl, by omega⟩
  · exact exec_encOp_of_not_encodable (d := .word14) (v := .word v) rfl
      ((encodable_word_iff v).not.2 (by omega)) s

/-- Settles O9: the check looks at the kept codes alone, and the bytes are those of `rawValue_text_toNat`. -/
theorem encTextCutsChecksAndPads : Obligations.EncTextCutsChecksAndPads := by
  intro s n t
  refine ⟨fun hkept => ?_, fun ⟨c, hc, hout⟩ => ?_⟩
  · exact ⟨_, rawValue_text_toNat hkept, rawValue_length (.fixedText n) (.text t) rfl,
      exec_encOp_of_encodable (d := .fixedText n) rfl ((encodable_text_iff n t).2 hkept) s⟩
  · refine exec_encOp_of_not_encodable (d := .fixedText n) (v := .text t) rfl (fun henc => ?_) s
    have := (encodable_text_iff n t).1 henc c hc
    omega

/-- Settles O10: the length word stands at 0 and each sample's word at 2 + 2·i of the bytes of the list. -/
theorem encSamplesWritesBiasedWords : Obligations.EncSamplesWritesBiasedWords := by
  intro s vs
  refine ⟨fun hlen hrange => ?_, fun hout => ?_⟩
  · have henc := (encodable_samples_iff vs).2 ⟨hlen, hrange⟩
    obtain ⟨-, hclear, hcount⟩ := wordAt_wordBytes vs.length hlen [] (vs.flatMap fun v => wordBytes (v + 1024).toNat)
    refine ⟨_, rawValue_length .sampleArray14 (.samples vs) rfl, hclear, hcount, fun i hi => ?_,
      exec_encOp_of_encodable (d := .sampleArray14) rfl henc s⟩
    obtain ⟨-, hclear', hsample⟩ := sampleBytes_at vs (wordBytes vs.length) [] hrange i hi
    rw [List.append_nil] at hclear' hsample
    have := hrange _ (List.getElem_mem hi)
    refine ⟨hclear', (congrArg Nat.cast hsample).trans (Int.toNat_of_nonneg (by omega))⟩
  · refine exec_encOp_of_not_encodable (d := .sampleArray14) (v := .samples vs) rfl (fun henc => ?_) s
    obtain ⟨hlen, hrange⟩ := (encodable_samples_iff vs).1 henc
    rcases hout with hlong | ⟨v, hv, hv'⟩
    · omega
    · have := hrange v hv
      omega

end Sys2Proof.Machine
end

section
/-! PROOFS. The rules of the version gate (42_version_gate.md R160 to R163): what CONFIGURATION and the two resets do
to it, and that nothing else touches it. -/

namespace Sys2Proof.Machine

/-! ### CONFIGURATION -/

/-- R162: two triples are equal when their three components are. -/
theorem remoteVersion_eq_iff (r : ConfigRecord) (v : VersionTriple) :
    remoteVersion r = v ↔
      r.versionMajor = v.major ∧ r.versionMinor = v.minor ∧ r.versionPatch = v.patch := by
  cases v; simp only [remoteVersion, VersionTriple.mk.injEq]

/-- R160: an equal version, while the gate is Unknown. -/
theorem exec_configuration_of_equal {r : ConfigRecord} {s : State} (hg : s.gate = .unknown)
    (hv : remoteVersion r = s.cfg.localVersion) :
    exec (.configuration r) s = .next { s with
      gate := .matched, activeCfg := some r, events := s.events ++ [.onConfiguration r],
      verdict := some .configMatched } := by
  simp only [exec, execConfiguration, hg, ne_eq, not_true_eq_false, if_false, if_pos hv]; rfl

/-- R160: a different version, while the gate is Unknown. -/
theorem exec_configuration_of_different {r : ConfigRecord} {s : State} (hg : s.gate = .unknown)
    (hv : remoteVersion r ≠ s.cfg.localVersion) :
    exec (.configuration r) s = .next { s with
      gate := .mismatched, events := s.events ++ [.onVersionMismatch s.cfg.localVersion (remoteVersion r)],
      verdict := some (.versionMismatch s.cfg.localVersion (remoteVersion r)) } := by
  simp only [exec, execConfiguration, hg, ne_eq, not_true_eq_false, if_false, if_neg hv]; rfl

/-- R163: a CONFIGURATION after the first is ignored. -/
theorem exec_configuration_of_decided {r : ConfigRecord} {s : State} (hg : s.gate ≠ .unknown) :
    exec (.configuration r) s = .next { s with verdict := some .configIgnored } := by
  simp only [exec, execConfiguration, if_pos hg]; rfl

/-! ### The two resets -/

/-- R161, R210, R212: DISCONNECTED and HWRESET clear the gate, the active configuration and every stream. -/
theorem exec_reset_clears {i : Instr} {s t : State} (hi : i = .disconnected ∨ i = .hwReset)
    (h : exec i s = .next t) :
    t.gate = .unknown ∧ t.activeCfg = none ∧ ∀ k, t.stream k = StreamRec.idle := by
  rcases hi with rfl | rfl <;> cases h <;> exact ⟨rfl, rfl, Memory.read_nil⟩

/-! ### What keeps the gate -/

/-- The gate and the active configuration of `t` are those of `s`. -/
def KeepsGate (s t : State) : Prop := t.gate = s.gate ∧ t.activeCfg = s.activeCfg

theorem KeepsGate.of_next {s t u : State} (hu : KeepsGate s u)
    (h : (.next u : Host.Outcome State Fault Refusal) = .next t) : KeepsGate s t := by
  cases h; exact hu

theorem keepsGate_conclude (s : State) (v : Verdict) : KeepsGate s (s.conclude v) := ⟨rfl, rfl⟩

theorem keepsGate_deliver (e : ConsumerEvent) (s : State) : KeepsGate s (deliver e s) := ⟨rfl, rfl⟩

theorem keepsGate_afterDec (s : State) (x : Except DecodeError (Record × Nat)) : KeepsGate s (s.afterDec x) := by
  cases x <;> exact ⟨rfl, rfl⟩

theorem keepsGate_afterEnc (s : State) (x : Except EncodeStop Frame) : KeepsGate s (s.afterEnc x) := by
  cases x <;> exact ⟨rfl, rfl⟩

theorem keepsGate_streamStart (k : ChannelKey) (size : Nat) (s : State) : KeepsGate s (streamStart k size s) :=
  ⟨rfl, rfl⟩

theorem keepsGate_streamData (k : ChannelKey) (offset : Nat) (vs : List Int) (s : State) :
    KeepsGate s (streamData k offset vs s) := by
  rcases streamData_cases k offset vs s with
    ⟨-, h⟩ | ⟨-, -, h⟩ | ⟨-, -, -, -, h⟩ | ⟨-, -, -, -, h⟩ | ⟨-, -, -, -, h⟩ <;>
    exact h ▸ ⟨rfl, rfl⟩

theorem keepsGate_streamEnd (k : ChannelKey) (s : State) : KeepsGate s (streamEnd k s) := by
  rcases streamEnd_cases k s with ⟨-, h⟩ | ⟨-, -, -, h⟩ | ⟨-, -, h⟩ <;> exact h ▸ ⟨rfl, rfl⟩

/-- Stage 4 keeps the gate when its handler does. -/
theorem keepsGate_of_gated {handler : State → State} {s t : State} (hh : KeepsGate s (handler s))
    (h : gated handler s = .next t) : KeepsGate s t := by
  rcases gated_cases handler s with ⟨-, hrun⟩ | ⟨-, hdrop⟩
  · exact hh.of_next (hrun ▸ h)
  · exact (keepsGate_conclude s .gated).of_next (hdrop ▸ h)

/-- R161: only a first CONFIGURATION and the two resets touch the gate. -/
theorem keepsGate_exec {i : Instr} {s t : State} (h : exec i s = .next t)
    (hfirst : ∀ r, i = .configuration r → s.gate ≠ .unknown)
    (hreset : ¬ (i = .disconnected ∨ i = .hwReset)) : KeepsGate s t := by
  cases i with
  | configuration r =>
    rw [exec_configuration_of_decided (hfirst r rfl)] at h
    exact (keepsGate_conclude s .configIgnored).of_next h
  | typeDef | curveDef | padDef | ready => exact keepsGate_of_gated (keepsGate_deliver _ s) h
  | monitorStart | scopeStart => exact keepsGate_of_gated (keepsGate_streamStart _ _ s) h
  | monitorData | scopeData => exact keepsGate_of_gated (keepsGate_streamData _ _ _ s) h
  | monitorEnd | scopeEnd => exact keepsGate_of_gated (keepsGate_streamEnd _ s) h
  | decMarker | decByte | decWord14 | decText | decSamples => exact (keepsGate_afterDec s _).of_next h
  | encMarker | encByte | encWord14 | encText | encSamples => exact (keepsGate_afterEnc s _).of_next h
  | connected => exact (keepsGate_conclude s .noOp).of_next h
  | txEncode k p =>
    obtain ⟨x, rfl⟩ := tx_shape h
    exact ⟨rfl, rfl⟩
  | disconnected => exact absurd (.inl rfl) hreset
  | hwReset => exact absurd (.inr rfl) hreset

/-! ### Which input asks for which instruction -/

@[simp] theorem ofPayload_kind (k : Kind) (x : Record) : (Instr.ofPayload k x).kind = some k := by cases k <;> rfl

/-- A frame decodes to a frame instruction. -/
theorem kind_of_decode {cfg : Config} {f : Frame} {i : Instr} (h : decode cfg f = .ok i) :
    ∃ k, i.kind = some k := by
  obtain ⟨k, r, -, -, -, -, -, -, rfl⟩ := decode_inv h
  exact ⟨k, ofPayload_kind k _⟩

/-- A frame instruction is fetched from a frame only. -/
theorem frame_of_fetch {cfg : Config} {input : Input} {i : Instr} {k : Kind} (h : input.fetch cfg = .ok i)
    (hk : i.kind = some k) : ∃ f, input = .frameIn f ∧ decode cfg f = .ok i := by
  cases input with
  | frameIn f => exact ⟨f, rfl, h⟩
  | disconnected | connected | hwReset | txEncode => cases h; cases hk

/-- The two resets are fetched from their own events only. -/
theorem reset_of_fetch {cfg : Config} {input : Input} {i : Instr} (h : input.fetch cfg = .ok i)
    (hi : i = .disconnected ∨ i = .hwReset) : input = .disconnected ∨ input = .hwReset := by
  cases input with
  | frameIn f =>
    obtain ⟨k, hk⟩ := kind_of_decode h
    rcases hi with rfl | rfl <;> cases hk
  | disconnected => exact .inl rfl
  | hwReset => exact .inr rfl
  | connected | txEncode => rcases hi with rfl | rfl <;> cases h

/-! ### A step on an input -/

section
variable {s t : State} {input : Input} {rest : List Input}

/-- All that a step on an input can do (R140). -/
theorem step_cases (h : step s = .next t) (hin : s.inbox = input :: rest) :
    (∃ i, input.fetch s.cfg = .ok i ∧ exec i (s.take rest) = .next t) ∨
    (∃ e, input.fetch s.cfg = .error e ∧ t = (s.take rest).conclude (Reject.verdict e)) := by
  have hadm : s.cfg.admitted = true := step_adm (by simp [hin]) h
  simp only [step, hin, hadm, Bool.true_eq_false, if_false] at h
  split at h
  next i hfetch => exact .inl ⟨i, hfetch, h⟩
  next e hfetch => cases h; exact .inr ⟨e, hfetch, rfl⟩

/-- An input that asks for an instruction runs it. -/
theorem exec_of_step {i : Instr} (h : step s = .next t) (hin : s.inbox = input :: rest)
    (hfetch : input.fetch s.cfg = .ok i) : exec i (s.take rest) = .next t := by
  rcases step_cases h hin with ⟨j, hj, hexec⟩ | ⟨e, he, -⟩
  · cases hj.symm.trans hfetch; exact hexec
  · cases he.symm.trans hfetch

/-- R161: only a frame with a first CONFIGURATION and the two reset events touch the gate. -/
theorem keepsGate_step (h : step s = .next t) (hin : s.inbox = input :: rest)
    (hfirst : ∀ f r, input = .frameIn f → decode s.cfg f = .ok (.configuration r) → s.gate ≠ .unknown)
    (hreset : ¬ (input = .disconnected ∨ input = .hwReset)) : KeepsGate s t := by
  rcases step_cases h hin with ⟨i, hfetch, hexec⟩ | ⟨e, -, rfl⟩
  · refine keepsGate_exec (s := s.take rest) hexec (fun r hi => ?_) (fun hi => hreset (reset_of_fetch hfetch hi))
    subst hi
    obtain ⟨f, hf, hdec⟩ := frame_of_fetch hfetch rfl
    exact hfirst f r hf hdec
  · exact keepsGate_conclude (s.take rest) _

end

end Sys2Proof.Machine
end

section
/-! PROOFS. The version gate (42_version_gate.md R160 to R163). -/

namespace Sys2Proof.Machine

/-- Settles O34: the gate is Unknown and the triples equal or not, or it is decided already. -/
theorem configurationDecidesTheGate : Obligations.ConfigurationDecidesTheGate := by
  intro s r
  have heq := remoteVersion_eq_iff r s.cfg.localVersion
  refine ⟨fun hg hmajor hminor hpatch => ?_, fun hg hdiff => ?_, exec_configuration_of_decided⟩
  · exact exec_configuration_of_equal hg (heq.2 ⟨hmajor, hminor, hpatch⟩)
  · exact exec_configuration_of_different hg (heq.not.2 hdiff)

/-- Settles O35: each row of the table is the rule of the instruction that the input asks for. -/
theorem gateTransitionTable : Obligations.GateTransitionTable := by
  intro s t input rest hstep hin
  have hrun {i} (hfetch : input.fetch s.cfg = .ok i) : exec i (s.take rest) = .next t :=
    exec_of_step hstep hin hfetch
  refine ⟨?reset, ?first, fun hd hr hfirst => keepsGate_step hstep hin hfirst (not_or.2 ⟨hd, hr⟩), ?noEffect⟩
  case reset =>
    rintro (rfl | rfl)
    · exact exec_reset_clears (.inl rfl) (hrun rfl)
    · exact exec_reset_clears (.inr rfl) (hrun rfl)
  case first =>
    rintro f r rfl hdec hg
    refine ⟨fun hv => ?_, fun hv => ?_⟩
    · cases (exec_configuration_of_equal (s := s.take rest) hg hv).symm.trans (hrun hdec)
      exact ⟨rfl, rfl, rfl⟩
    · cases (exec_configuration_of_different (s := s.take rest) hg hv).symm.trans (hrun hdec)
      exact ⟨rfl, rfl, rfl⟩
  case noEffect =>
    rintro (rfl | ⟨f, r, rfl, hdec, hg⟩)
    · cases hrun rfl
      exact ⟨rfl, rfl, rfl, rfl⟩
    · cases (exec_configuration_of_decided (s := s.take rest) hg).symm.trans (hrun hdec)
      exact ⟨rfl, rfl, rfl, rfl⟩

end Sys2Proof.Machine
end

section
/-! PROOFS. The definition commands (43_definition_commands.md): each of the four is `deliver` behind stage 4, so one
rule says what all of them do under a Matched gate. -/

namespace Sys2Proof.Machine

/-- R174: a direct consumer update appends its event and ends with Delivered; the rest of the state stays. -/
theorem deliver_eq (e : ConsumerEvent) (s : State) :
    deliver e s = { s with events := s.events ++ [e], verdict := some .delivered } := rfl

/-! ### The event that each command delivers -/

/-- R170: the payload record itself. -/
theorem exec_typeDef (p : Record) (s : State) : exec (.typeDef p) s = gated (deliver (.onType p)) s := rfl

/-- R171: the curve descriptor. -/
theorem exec_curveDef (c : CurveDescriptor) (s : State) : exec (.curveDef c) s = gated (deliver (.onCurve c)) s := rfl

/-- R172: the pad properties. -/
theorem exec_padDef (p : PadProperties) (s : State) : exec (.padDef p) s = gated (deliver (.onPad p)) s := rfl

/-- R173: no argument, whatever the payload of a configured layout. -/
theorem exec_ready (p : Record) (s : State) : exec (.ready p) s = gated (deliver .onReady) s := rfl

/-- R174: a direct consumer update under a Matched gate. -/
theorem gated_deliver_of_matched {s : State} (hs : s.gate = .matched) (e : ConsumerEvent) :
    gated (deliver e) s = .next { s with events := s.events ++ [e], verdict := some .delivered } := by
  rw [gated_matched hs, deliver_eq]

/-- Settles O39: each command is the delivery of its own event, which a Matched gate lets run. -/
theorem definitionCommandsDeliver : Obligations.DefinitionCommandsDeliver := by
  intro s hs
  have hrun := gated_deliver_of_matched hs
  refine ⟨fun p => ?type, fun c => ?curve, fun p => ?pad, fun p => ?ready⟩
  case type => rw [exec_typeDef, hrun]
  case curve => rw [exec_curveDef, hrun]
  case pad => rw [exec_padDef, hrun]
  case ready => rw [exec_ready, hrun]

end Sys2Proof.Machine
end

section
/-! PROOFS. The stream commands (44_stream_commands.md R182 to R184). START, DATA and END are the three stream operations
behind stage 4; what each operation can do (`streamStart_eq`, `streamData_cases`, `streamEnd_cases`) is read here as one
equation for each outcome, and one lemma says what the commands that write a record have in common. -/

namespace Sys2Proof.Machine

/-! ### The operation that a command runs under a Matched gate -/

theorem exec_startOf_of_matched {s : State} (hs : s.gate = .matched) (k : ChannelKey) (size : Word14) :
    exec (startOf k size) s = .next (streamStart k size.toNat s) := by
  rw [exec_startOf, gated_matched hs]

theorem exec_dataOf_of_matched {s : State} (hs : s.gate = .matched) (k : ChannelKey) (offset : Word14)
    (vs : List Int) : exec (dataOf k offset vs) s = .next (streamData k offset.toNat vs s) := by
  rw [exec_dataOf, gated_matched hs]

theorem exec_endOf_of_matched {s : State} (hs : s.gate = .matched) (k : ChannelKey) :
    exec (endOf k) s = .next (streamEnd k s) := by
  rw [exec_endOf, gated_matched hs]

/-! ### An equation for each outcome of DATA (R183) -/

section
variable {k : ChannelKey} {o : Nat} {vs : List Int} {s : State}

theorem streamData_of_idle (hst : (s.stream k).st = .idle) :
    streamData k o vs s = s.conclude .streamNotCollecting := by
  simpa [hst] using streamData_cases k o vs s

theorem streamData_of_truncated (hst : (s.stream k).st = .collecting) (ht : (s.stream k).truncated = true) :
    streamData k o vs s = s.conclude .streamPoisoned := by
  simpa [hst, ht] using streamData_cases k o vs s

theorem streamData_of_offset_mismatch (hst : (s.stream k).st = .collecting) (ht : (s.stream k).truncated = false)
    (hp : s.cfg.offsetPolicy = .rejectOnMismatch) (ho : o ≠ (s.stream k).cursor) :
    streamData k o vs s = s.conclude (.streamOffsetMismatch o (s.stream k).cursor) := by
  simpa [hst, ht, hp, ho] using streamData_cases k o vs s

/-- Once the offset is accepted, by the policy or by its value (R186), the declared size decides (R187). -/
theorem streamData_of_offset_accepted (hst : (s.stream k).st = .collecting) (ht : (s.stream k).truncated = false)
    (hoff : s.cfg.offsetPolicy = .ignore ∨ o = (s.stream k).cursor) :
    streamData k o vs s =
      if (s.stream k).declaredSize < (s.stream k).cursor + vs.length then
        (s.setStream k { s.stream k with truncated := true }).conclude .streamOverflow
      else
        (s.setStream k { s.stream k with
          samples := (s.stream k).samples ++ vs, cursor := (s.stream k).cursor + vs.length }).conclude
            .streamAppended := by
  rcases streamData_cases k o vs s with
    ⟨hidle, -⟩ | ⟨-, htrue, -⟩ | ⟨-, -, hp, ho, -⟩ | ⟨-, -, -, hlen, h⟩ | ⟨-, -, -, hlen, h⟩
  · cases hst.symm.trans hidle
  · cases ht.symm.trans htrue
  · rcases hoff with hignore | heq
    · cases hp.symm.trans hignore
    · exact absurd heq ho
  · exact h.trans (if_pos hlen).symm
  · exact h.trans (if_neg (Nat.not_lt.2 hlen)).symm

theorem streamData_of_overflow (hst : (s.stream k).st = .collecting) (ht : (s.stream k).truncated = false)
    (hoff : s.cfg.offsetPolicy = .ignore ∨ o = (s.stream k).cursor)
    (hlen : (s.stream k).declaredSize < (s.stream k).cursor + vs.length) :
    streamData k o vs s = (s.setStream k { s.stream k with truncated := true }).conclude .streamOverflow :=
  (streamData_of_offset_accepted hst ht hoff).trans (if_pos hlen)

theorem streamData_of_fits (hst : (s.stream k).st = .collecting) (ht : (s.stream k).truncated = false)
    (hoff : s.cfg.offsetPolicy = .ignore ∨ o = (s.stream k).cursor)
    (hlen : (s.stream k).cursor + vs.length ≤ (s.stream k).declaredSize) :
    streamData k o vs s = (s.setStream k { s.stream k with
      samples := (s.stream k).samples ++ vs, cursor := (s.stream k).cursor + vs.length }).conclude
        .streamAppended :=
  (streamData_of_offset_accepted hst ht hoff).trans (if_neg (Nat.not_lt.2 hlen))

/-! ### An equation for each outcome of END (R184) -/

theorem streamEnd_of_idle (hst : (s.stream k).st = .idle) : streamEnd k s = s.conclude .streamEndIdle := by
  simpa [hst] using streamEnd_cases k s

theorem streamEnd_of_complete (hst : (s.stream k).st = .collecting) (ht : (s.stream k).truncated = false)
    (hfull : (s.stream k).cursor = (s.stream k).declaredSize) :
    streamEnd k s =
      ((s.setStream k StreamRec.idle).emit (.onStreamComplete k (s.stream k).samples)).conclude
        .streamComplete := by
  simpa [hst, ht, hfull] using streamEnd_cases k s

/-- Being truncated decides, even when the cursor equals the declared size (R184). -/
theorem streamEnd_of_incomplete (hst : (s.stream k).st = .collecting)
    (h : (s.stream k).truncated = true ∨ (s.stream k).cursor ≠ (s.stream k).declaredSize) :
    streamEnd k s = (s.setStream k StreamRec.idle).conclude .streamIncomplete := by
  rcases h with h | h <;> simpa [hst, h] using streamEnd_cases k s

end

/-! ### What a command that writes its key's record leaves alone -/

/-- The frame of R182 to R184: only the record of `k`, the events and the verdict may differ, so that every other key
reads as before. -/
theorem next_of_record_written {s : State} {k : ChannelKey} {r : StreamRec} {es : List ConsumerEvent} {v : Verdict}
    {x : Host.Outcome State Fault Refusal}
    (h : x = .next { s.setStream k r with events := es, verdict := some v }) :
    ∃ t, x = .next t ∧ t.stream k = r ∧ (∀ k', k' ≠ k → t.stream k' = s.stream k') ∧
      t = { s with streams := t.streams, events := es, verdict := some v } :=
  ⟨_, h, setStream_stream_same s k r, fun _ hk => setStream_stream_other s hk r, rfl⟩

/-! ### The three commands -/

/-- Settles O40: START writes the opened record, whatever the key held. -/
theorem startOpensTheStream : Obligations.StartOpensTheStream := by
  intro s k size hs
  have hrun := exec_startOf_of_matched hs k size
  rw [streamStart_eq] at hrun
  exact next_of_record_written hrun

/-- Settles O41: each clause is the equation of its outcome; only overflow and append write the key's record. -/
theorem dataAppendsInCheckOrder : Obligations.DataAppendsInCheckOrder := by
  intro s k offset vs hs
  rw [exec_dataOf_of_matched hs k offset vs]
  refine ⟨fun hst => ?idle, fun hst ht => ?poisoned, fun hst ht hp ho => ?mismatch,
    fun hst ht hoff hlen => ?overflow, fun hst ht hoff hlen => ?append⟩
  case idle => rw [streamData_of_idle hst]; rfl
  case poisoned => rw [streamData_of_truncated hst ht]; rfl
  case mismatch => rw [streamData_of_offset_mismatch hst ht hp ho]; rfl
  case overflow => exact next_of_record_written (congrArg _ (streamData_of_overflow hst ht hoff hlen))
  case append => exact next_of_record_written (congrArg _ (streamData_of_fits hst ht hoff hlen))

/-- Settles O42: each clause is the equation of its outcome; both ends of a collecting stream write IDLE. -/
theorem endDeliversOnlyTheComplete : Obligations.EndDeliversOnlyTheComplete := by
  intro s k hs
  rw [exec_endOf_of_matched hs k]
  refine ⟨fun hst => ?idle, fun hst ht hfull => ?complete, fun hst hpart => ?incomplete⟩
  case idle => rw [streamEnd_of_idle hst]; rfl
  case complete => exact next_of_record_written (congrArg _ (streamEnd_of_complete hst ht hfull))
  case incomplete => exact next_of_record_written (congrArg _ (streamEnd_of_incomplete hst hpart))

end Sys2Proof.Machine
end

section
/-! PROOFS. The rules of the transmit operation (45_events_and_tx.md R213 to R216): what an encode of a shaped record
answers, what TX_ENCODE makes of it, and that neither the frame instructions nor the events meet its results. -/

namespace Sys2Proof.Machine

/-! ### What an encode of a shaped record answers -/

/-- R117: a Marker takes no entry of the record and has no error. -/
theorem encFields_marker (cfg : Config) (i : Nat) (field : FieldName) (l : FieldLayout) (r : Record) :
    encFields cfg i ((field, .marker) :: l) r =
      (encFields cfg (i + 1) l r).map (fun bs => encMarker cfg i ++ bs) := by
  cases r <;> rfl

theorem rawFields_marker (cfg : Config) (i : Nat) (field : FieldName) (l : FieldLayout) (r : Record) :
    rawFields cfg i ((field, .marker) :: l) r = encMarker cfg i ++ rawFields cfg (i + 1) l r := by
  cases r <;> rfl

/-- R116: the loop of `encode` writes the bytes of the record, or stops at its first value out of range. -/
theorem encFields_of_fits (cfg : Config) : ∀ (l : FieldLayout) (i : Nat) (r : Record),
    Record.fits Value.hasKind l r = true →
    encFields cfg i l r =
      if Record.fits Value.encodable l r = true then .ok (rawFields cfg i l r) else .error .outOfRange := by
  intro l
  induction l with
  | nil =>
    intro i r hr
    rw [Record.fits_nil hr]; rfl
  | cons fd l ih =>
    obtain ⟨field, d⟩ := fd
    intro i r hr
    by_cases hd : d = .marker
    · subst hd
      rw [Record.fits_marker] at hr ⊢
      rw [encFields_marker, rawFields_marker, ih (i + 1) r hr]
      split <;> rfl
    · obtain ⟨v, r', rfl, hv, hr'⟩ := Record.fits_cons hd hr
      rw [encFields, if_neg hd]
      by_cases henc : Value.encodable d v = true
      · have hfits : Record.fits Value.encodable ((field, d) :: l) ((field, v) :: r') =
            Record.fits Value.encodable l r' := by simp [Record.fits, hd, henc]
        simp only [encValue_raw d v henc, ih (i + 1) r' hr', hfits, rawFields, if_neg hd, if_true]
        split <;> rfl
      · have hfits : ¬ Record.fits Value.encodable ((field, d) :: l) ((field, v) :: r') = true := by
          simp [Record.fits, hd, henc]
        simp only [encValue_err d v hv (Bool.eq_false_iff.2 henc), if_neg hfits, if_true]

/-- R213: the Header's command byte is 0..127 (R8), so that the vendor byte and the payload decide. -/
theorem txEncode_of_fits {cfg : Config} {k : Kind} {p : Record} (hadm : cfg.admitted = true)
    (hp : Record.fits Value.hasKind (cfg.payloadFields k) p = true) :
    txEncode cfg k p =
      if cfg.vendorId.toNat ≤ 127 ∧ Record.fits Value.encodable (cfg.payloadFields k) p = true then
        .ok (rawFields cfg 0 (cfg.layout k) (cfg.header k ++ p))
      else .error .outOfRange := by
  have hshape : Record.fits Value.hasKind (cfg.layout k) (cfg.header k ++ p) = true := by
    rw [fits_layout hadm, hp]; rfl
  have hcmd : Value.encodable .byte (.byte (cfg.cmd k).toNat) = true := by
    have := (admitted_facts hadm).small k
    exact (encodable_byte_iff _).2 (by omega)
  have hvendor : Value.encodable .byte (.byte cfg.vendorId.toNat) = true ↔ cfg.vendorId.toNat ≤ 127 := by
    rw [encodable_byte_iff]; omega
  rw [txEncode, encodeLayout, if_pos hshape, encFields_of_fits cfg _ 0 _ hshape]
  simp only [fits_layout hadm, hcmd, Bool.and_true, Bool.and_eq_true, hvendor]

/-! ### What TX_ENCODE makes of it -/

/-- The transmit client receives one more result; nothing else changes. -/
def State.appendTx (s : State) (x : TxResult) : State := { s with txOut := s.txOut ++ [x] }

@[simp] theorem appendTx_cfg (s : State) (x : TxResult) : (s.appendTx x).cfg = s.cfg := rfl
@[simp] theorem appendTx_stream (s : State) (x : TxResult) (k : ChannelKey) :
    (s.appendTx x).stream k = s.stream k := rfl

/-- R213: a complete frame goes to the transmit client. -/
theorem exec_txEncode_of_ok {s : State} {k : Kind} {p : Record} {f : Frame} (h : txEncode s.cfg k p = .ok f) :
    exec (.txEncode k p) s = .next (s.appendTx (.frame f)) := by
  simp only [exec, execTxEncode, h]; rfl

/-- R216: a refused encode gives no byte. -/
theorem exec_txEncode_of_outOfRange {s : State} {k : Kind} {p : Record}
    (h : txEncode s.cfg k p = .error .outOfRange) :
    exec (.txEncode k p) s = .next (s.appendTx (.refused .encodeOutOfRange)) := by
  simp only [exec, execTxEncode, h]; rfl

/-- D39: a record that does not fit its layout has no meaning. -/
theorem exec_txEncode_of_illShaped {s : State} {k : Kind} {p : Record}
    (h : txEncode s.cfg k p = .error .illShaped) : exec (.txEncode k p) s = .refused .illShapedRecord := by
  simp only [exec, execTxEncode, h]

/-- R215: TX_ENCODE appends one result, which the configuration alone decides. -/
theorem exec_txEncode_appends {s u : State} {k : Kind} {p : Record} (h : exec (.txEncode k p) s = .next u) :
    ∃ x, u = s.appendTx x ∧ ∀ t, t.cfg = s.cfg → exec (.txEncode k p) t = .next (t.appendTx x) := by
  cases henc : txEncode s.cfg k p with
  | ok f =>
    cases (exec_txEncode_of_ok henc).symm.trans h
    exact ⟨_, rfl, fun t ht => exec_txEncode_of_ok (ht ▸ henc)⟩
  | error e =>
    cases e with
    | outOfRange =>
      cases (exec_txEncode_of_outOfRange henc).symm.trans h
      exact ⟨_, rfl, fun t ht => exec_txEncode_of_outOfRange (ht ▸ henc)⟩
    | illShaped => cases (exec_txEncode_of_illShaped henc).symm.trans h

/-! ### What has no part in a transmit -/

/-- A run that keeps what TX_ENCODE reads, and that neither reads nor writes what TX_ENCODE writes. -/
def TransmitFree (run : State → Host.Outcome State Fault Refusal) : Prop :=
  ∀ s t, run s = .next t → t.cfg = s.cfg ∧ ∀ x, run (s.appendTx x) = .next (t.appendTx x)

theorem transmitFree_next {update : State → State} (hcfg : ∀ s, (update s).cfg = s.cfg)
    (happend : ∀ s x, update (s.appendTx x) = (update s).appendTx x) : TransmitFree (fun s => .next (update s)) := by
  intro s t h
  cases h
  exact ⟨hcfg s, fun x => congrArg _ (happend s x)⟩

theorem transmitFree_conclude (v : Verdict) : TransmitFree (fun s => .next (s.conclude v)) :=
  transmitFree_next (fun _ => rfl) fun _ _ => rfl

theorem transmitFree_deliver (e : ConsumerEvent) : TransmitFree (fun s => .next (deliver e s)) :=
  transmitFree_next (fun _ => rfl) fun _ _ => rfl

theorem transmitFree_reset (v : Verdict) : TransmitFree (fun s => .next ((resetCore s).conclude v)) :=
  transmitFree_next (fun _ => rfl) fun _ _ => rfl

theorem transmitFree_streamStart (k : ChannelKey) (size : Nat) :
    TransmitFree (fun s => .next (streamStart k size s)) :=
  transmitFree_next (fun _ => rfl) fun _ _ => rfl

theorem transmitFree_streamData (k : ChannelKey) (offset : Nat) (vs : List Int) :
    TransmitFree (fun s => .next (streamData k offset vs s)) := by
  refine transmitFree_next (fun s => ?_) fun s x => ?_
  · rcases streamData_cases k offset vs s with
      ⟨-, h⟩ | ⟨-, -, h⟩ | ⟨-, -, -, -, h⟩ | ⟨-, -, -, -, h⟩ | ⟨-, -, -, -, h⟩ <;> exact h ▸ rfl
  · simp only [streamData, appendTx_stream, appendTx_cfg, apply_ite (State.appendTx · x)]; rfl

theorem transmitFree_streamEnd (k : ChannelKey) : TransmitFree (fun s => .next (streamEnd k s)) := by
  refine transmitFree_next (fun s => ?_) fun s x => ?_
  · rcases streamEnd_cases k s with ⟨-, h⟩ | ⟨-, -, -, h⟩ | ⟨-, -, h⟩ <;> exact h ▸ rfl
  · simp only [streamEnd, appendTx_stream, apply_ite (State.appendTx · x)]; rfl

/-- Stage 4 looks at the gate alone. -/
theorem transmitFree_gated {handler : State → State} (hh : TransmitFree (fun s => .next (handler s))) :
    TransmitFree (gated handler) := by
  intro s t h
  by_cases hs : s.gate = .matched
  · rw [gated_matched hs] at h
    obtain ⟨hcfg, happend⟩ := hh s t h
    exact ⟨hcfg, fun x => (gated_matched (s := s.appendTx x) hs).trans (happend x)⟩
  · cases (if_neg hs).symm.trans h
    exact ⟨rfl, fun x => if_neg hs⟩

theorem transmitFree_configuration (r : ConfigRecord) : TransmitFree (exec (.configuration r)) := by
  intro s t h
  by_cases hg : s.gate = .unknown
  · by_cases hv : remoteVersion r = s.cfg.localVersion
    · cases (exec_configuration_of_equal hg hv).symm.trans h
      exact ⟨rfl, fun x => exec_configuration_of_equal (s := s.appendTx x) hg hv⟩
    · cases (exec_configuration_of_different hg hv).symm.trans h
      exact ⟨rfl, fun x => exec_configuration_of_different (s := s.appendTx x) hg hv⟩
  · cases (exec_configuration_of_decided hg).symm.trans h
    exact ⟨rfl, fun x => exec_configuration_of_decided (s := s.appendTx x) hg⟩

/-- R215: no frame instruction and no event has a part in a transmit. -/
theorem transmitFree_exec {i : Instr}
    (hi : i.kind ≠ none ∨ i = .disconnected ∨ i = .connected ∨ i = .hwReset) : TransmitFree (exec i) := by
  cases i with
  | configuration r => exact transmitFree_configuration r
  | typeDef | curveDef | padDef | ready => exact transmitFree_gated (transmitFree_deliver _)
  | monitorStart | scopeStart => exact transmitFree_gated (transmitFree_streamStart _ _)
  | monitorData | scopeData => exact transmitFree_gated (transmitFree_streamData _ _ _)
  | monitorEnd | scopeEnd => exact transmitFree_gated (transmitFree_streamEnd _)
  | disconnected => exact transmitFree_reset .cleared
  | hwReset => exact transmitFree_reset .resetDone
  | connected => exact transmitFree_conclude .noOp
  | decMarker | decByte | decWord14 | decText | decSamples | encMarker | encByte | encWord14 | encText
  | encSamples | txEncode => simp [Instr.kind] at hi

end Sys2Proof.Machine
end

section
/-! PROOFS. The lifecycle events and the transmit operation (45_events_and_tx.md R210 to R216). -/

namespace Sys2Proof.Machine

/-- R210: DISCONNECTED, with its frame. -/
theorem exec_disconnected (s : State) : exec .disconnected s =
    .next { s with gate := .unknown, activeCfg := none, streams := [], verdict := some .cleared } := rfl

/-- R211: CONNECTED, with its frame. -/
theorem exec_connected (s : State) : exec .connected s = .next { s with verdict := some .noOp } := rfl

/-- R212: HWRESET, with its frame. -/
theorem exec_hwReset (s : State) : exec .hwReset s =
    .next { s with gate := .unknown, activeCfg := none, streams := [], verdict := some .resetDone } := rfl

/-- Settles O50: the cleared values do not depend on what they replace, so that a second event finds them there. -/
theorem disconnectClearsEverything : Obligations.DisconnectClearsEverything := by
  intro s
  have hrun := exec_disconnected s
  obtain ⟨-, -, hstreams⟩ := exec_reset_clears (.inl rfl) hrun
  exact ⟨_, hrun, rfl, hstreams, exec_disconnected _⟩

/-- Settles O51: the rule of CONNECTED is the whole claim. -/
theorem connectedDoesNothing : Obligations.ConnectedDoesNothing := exec_connected

/-- Settles O52: HWRESET and DISCONNECTED run the same reset under two verdicts. -/
theorem hardwareResetLeavesResetValues : Obligations.HardwareResetLeavesResetValues := by
  intro s
  have hrun := exec_hwReset s
  obtain ⟨hgate, hactive, hstreams⟩ := exec_reset_clears (.inr rfl) hrun
  exact ⟨_, hrun, hgate, hactive, fun k => (hstreams k).trans (reset_stream k).symm, rfl, rfl,
    exec_disconnected s, rfl⟩

/-- Settles O53: the vendor byte and the payload decide between the two answers of the encode. -/
theorem transmitAnswersFrameOrRefusal : Obligations.TransmitAnswersFrameOrRefusal := by
  intro s k p hadm hshape
  have htx := txEncode_of_fits hadm hshape
  refine ⟨fun hvendor henc => ?frame, fun hout => ?refused⟩
  case frame =>
    rw [if_pos ⟨hvendor, henc⟩] at htx
    exact ⟨_, htx, exec_txEncode_of_ok htx⟩
  case refused =>
    have hneg : ¬ (s.cfg.vendorId.toNat ≤ 127 ∧
        Record.fits Value.encodable (s.cfg.payloadFields k) p = true) := by
      rintro ⟨hvendor, henc⟩
      rcases hout with hbig | hbad
      · omega
      · cases henc.symm.trans hbad
    rw [if_neg hneg] at htx
    exact exec_txEncode_of_outOfRange htx

/-- Settles O55: the request reads the configuration, which `i` keeps, and writes a result, which `i` does not read. -/
theorem transmitIsIndependentOfReceive : Obligations.TransmitIsIndependentOfReceive := by
  intro s t u i k p hi hrun htx
  obtain ⟨x, rfl, hresult⟩ := exec_txEncode_appends htx
  obtain ⟨hcfg, happend⟩ := transmitFree_exec hi s t hrun
  exact ⟨x, rfl, hresult t hcfg, happend x⟩

end Sys2Proof.Machine
end

section
/-! PROOFS. The rules of the frames that have no effect (60_exceptions.md R232, R233, R236): what stages 1 and 2 reject, a
step on a rejected frame, and stage 4 in front of every handler. -/

namespace Sys2Proof.Machine

/-! ### What stages 1 and 2 reject -/

/-- R141: the frame is too short, or one of its first two bytes is another's. -/
theorem decode_of_foreign {cfg : Config} {f : Frame}
    (h : f.length < 3 ∨ f.getD 0 0 ≠ cfg.startMarker ∨ f.getD 1 0 ≠ cfg.vendorId) :
    decode cfg f = .error .notOurs :=
  if_pos h

/-- R142: a byte that is no kind's command byte names no kind. -/
theorem kindOf_eq_none {cfg : Config} {c : Byte} (hc : ∀ k, cfg.cmd k ≠ c) : cfg.kindOf c = none :=
  List.find?_eq_none.2 fun k _ => by simpa using hc k

/-- R142: stage 2 looks at the command byte alone, so that the tail is any. -/
theorem decode_of_unknown_command {cfg : Config} {c : Byte} (hc : ∀ k, cfg.cmd k ≠ c) (tail : Frame) :
    decode cfg (cfg.startMarker :: cfg.vendorId :: c :: tail) = .error (.unknownCommand c) := by
  have hcommand : Frame.at (cfg.startMarker :: cfg.vendorId :: c :: tail) 2 = c := rfl
  rw [decode, if_neg (by simp [Frame.at]), hcommand, kindOf_eq_none hc]

/-! ### A step on a rejected frame -/

/-- R140, R249: the frame is taken and its verdict recorded, and that is all. -/
theorem step_of_rejected {s : State} {f : Frame} {rest : List Input} {e : Reject} (hadm : s.cfg.admitted = true)
    (hin : s.inbox = .frameIn f :: rest) (hdec : decode s.cfg f = .error e) :
    step s = .next { s with inbox := rest, codec := Codec.idle, verdict := some (Reject.verdict e) } := by
  simp only [step, hin, hadm, Bool.true_eq_false, if_false, Input.fetch, hdec]
  rfl

/-! ### Stage 4 in front of every handler -/

/-- R144, R164: a frame is dropped while the gate is Unknown or Mismatched. -/
theorem gated_of_not_matched {s : State} (hs : s.gate ≠ .matched) (handler : State → State) :
    gated handler s = .next { s with verdict := some .gated } :=
  if_neg hs

/-- `t` records a verdict, and not that of a frame which stage 4 drops. -/
def EndsUngated (t : State) : Prop := ∃ v, t.verdict = some v ∧ v ≠ .gated

theorem endsUngated_conclude (s : State) {v : Verdict} (hv : v ≠ .gated) : EndsUngated (s.conclude v) :=
  ⟨v, rfl, hv⟩

theorem endsUngated_deliver (e : ConsumerEvent) (s : State) : EndsUngated (deliver e s) :=
  endsUngated_conclude _ nofun

theorem endsUngated_streamStart (k : ChannelKey) (size : Nat) (s : State) : EndsUngated (streamStart k size s) :=
  endsUngated_conclude _ (by split <;> nofun)

theorem endsUngated_streamData (k : ChannelKey) (offset : Nat) (vs : List Int) (s : State) :
    EndsUngated (streamData k offset vs s) := by
  rcases streamData_cases k offset vs s with
    ⟨-, h⟩ | ⟨-, -, h⟩ | ⟨-, -, -, -, h⟩ | ⟨-, -, -, -, h⟩ | ⟨-, -, -, -, h⟩ <;>
    exact h ▸ endsUngated_conclude _ nofun

theorem endsUngated_streamEnd (k : ChannelKey) (s : State) : EndsUngated (streamEnd k s) := by
  rcases streamEnd_cases k s with ⟨-, h⟩ | ⟨-, -, -, h⟩ | ⟨-, -, h⟩ <;>
    exact h ▸ endsUngated_conclude _ nofun

/-- R144: of the frame instructions, all but CONFIGURATION run their handler behind stage 4. -/
theorem exec_eq_gated {i : Instr} {k : Kind} (hk : i.kind = some k) (hne : k ≠ .configuration) :
    ∃ handler, exec i = gated handler ∧ ∀ s, EndsUngated (handler s) := by
  cases i with
  | configuration => cases hk; exact absurd rfl hne
  | typeDef | curveDef | padDef | ready => exact ⟨_, rfl, endsUngated_deliver _⟩
  | monitorStart | scopeStart => exact ⟨_, rfl, endsUngated_streamStart _ _⟩
  | monitorData | scopeData => exact ⟨_, rfl, endsUngated_streamData _ _ _⟩
  | monitorEnd | scopeEnd => exact ⟨_, rfl, endsUngated_streamEnd _⟩
  | decMarker | decByte | decWord14 | decText | decSamples | encMarker | encByte | encWord14 | encText
  | encSamples | disconnected | connected | hwReset | txEncode => cases hk

end Sys2Proof.Machine
end

section
/-! PROOFS. The frames that have no effect (60_exceptions.md R232, R233, R236). -/

namespace Sys2Proof.Machine

/-- Settles O27: stage 1 rejects the frame. -/
theorem foreignFramesAreDiscarded : Obligations.ForeignFramesAreDiscarded :=
  fun _ _ _ hadm hin hforeign => step_of_rejected hadm hin (decode_of_foreign hforeign)

/-- Settles O28: stage 2 rejects the frame before stage 3 looks at its tail. -/
theorem unknownCommandsAreDiscarded : Obligations.UnknownCommandsAreDiscarded :=
  fun _ _ tail _ hadm hin hc => step_of_rejected hadm hin (decode_of_unknown_command hc tail)

/-- Settles O36: stage 4 drops the frame, or the handler runs and ends with a verdict of its own. -/
theorem untrustedFramesAreDropped : Obligations.UntrustedFramesAreDropped := by
  intro s i k hk hne
  obtain ⟨handler, hexec, hends⟩ := exec_eq_gated hk hne
  rw [hexec]
  exact ⟨fun hs => gated_of_not_matched hs handler, fun hs => ⟨handler s, gated_matched hs, hends s⟩⟩

end Sys2Proof.Machine
end

section
/-! PROOFS. The rules of the bytes that `decode` looks at (60_exceptions.md R273, 20_memory.md R65): a decoder that answers
has read no byte past its final offset, and the end Marker is read by its presence alone. -/

namespace Sys2Proof.Machine

/-! ### Decoders in sequence -/

/-- A decoder of the field codec: a value and the new offset, or an error (R110). -/
abbrev Decoder (α : Type) := Frame → Nat → Except DecodeError (α × Nat)

/-- The decoder that reads nothing. -/
def Decoder.done {α : Type} (a : α) : Decoder α := fun _ off => .ok (a, off)

/-- The second decoder goes on where the first one stopped; the first error is the answer. -/
def Decoder.andThen {α β : Type} (first : Decoder α) (next : α → Decoder β) : Decoder β := fun f off =>
  match first f off with
  | .error e => .error e
  | .ok (a, off') => next a f off'

theorem Decoder.andThen_done {α β : Type} (read : Decoder α) (φ : α → β) (f : Frame) (off : Nat) :
    read.andThen (fun a => done (φ a)) f off = (read f off).map (fun x => (φ x.1, x.2)) := by
  rw [andThen]
  cases read f off <;> rfl

theorem decWords_succ (n : Nat) :
    decWords (n + 1) = Decoder.andThen decWord14 fun w => Decoder.andThen (decWords n) fun ws => .done (w :: ws) := by
  funext f off
  rw [decWords, Decoder.andThen]
  cases decWord14 f off with
  | error e => rfl
  | ok x => dsimp only [Decoder.andThen]; cases decWords n f x.2 <;> rfl

theorem decSamples_eq : decSamples = Decoder.andThen decWord14 fun count =>
    Decoder.andThen (decWords count) fun ws => .done (ws.map fun w : Nat => (w : Int) - 1024) := by
  funext f off
  rw [decSamples, Decoder.andThen]
  cases decWord14 f off with
  | error e => rfl
  | ok x => dsimp only [Decoder.andThen]; cases decWords x.1 f x.2 <;> rfl

theorem decField_word14_eq (field : FieldName) : decField field .word14 =
    Decoder.andThen decWord14 fun w => .done [(field, .word w)] := by
  funext f off
  rw [Decoder.andThen_done]; rfl

theorem decField_samples_eq (field : FieldName) : decField field .sampleArray14 =
    Decoder.andThen decSamples fun vs => .done [(field, .samples vs)] := by
  funext f off
  rw [Decoder.andThen_done]; rfl

theorem decFields_cons (field : FieldName) (d : FieldDesc) (l : FieldLayout) : decFields ((field, d) :: l) =
    Decoder.andThen (decField field d) fun cell => Decoder.andThen (decFields l) fun r => .done (cell ++ r) := by
  funext f off
  rw [decFields, Decoder.andThen]
  cases decField field d f off with
  | error e => rfl
  | ok x => dsimp only [Decoder.andThen]; cases decFields l f x.2 <;> rfl

/-! ### What a decoder reads -/

/-- A decoder that answers never moves back, and answers alike on every frame with the same bytes up to its final
offset (R65). -/
def Decoder.ReadsPrefix {α : Type} (read : Decoder α) : Prop :=
  ∀ f off a fin, read f off = .ok (a, fin) →
    off ≤ fin ∧ ∀ g : Frame, g.take fin = f.take fin → read g off = .ok (a, fin)

theorem take_eq_of_le {f g : Frame} {m n : Nat} (h : g.take n = f.take n) (hmn : m ≤ n) : g.take m = f.take m := by
  have := congrArg (List.take m) h
  rwa [List.take_take, List.take_take, Nat.min_eq_left hmn] at this

theorem Decoder.readsPrefix_done {α : Type} (a : α) : (done a).ReadsPrefix := by
  intro f off b fin h
  cases h
  exact ⟨Nat.le_refl _, fun _ _ => rfl⟩

theorem Decoder.ReadsPrefix.andThen {α β : Type} {first : Decoder α} {next : α → Decoder β} (hfirst : first.ReadsPrefix)
    (hnext : ∀ a, (next a).ReadsPrefix) : (first.andThen next).ReadsPrefix := by
  intro f off b fin h
  unfold Decoder.andThen at h ⊢
  cases hf : first f off with
  | error e => rw [hf] at h; cases h
  | ok x =>
    obtain ⟨a, mid⟩ := x
    rw [hf] at h
    obtain ⟨hmid, hsame⟩ := hfirst f off a mid hf
    obtain ⟨hfin, hrest⟩ := hnext a f mid b fin h
    refine ⟨hmid.trans hfin, fun g hg => ?_⟩
    rw [hsame g (take_eq_of_le hg hfin)]
    exact hrest g hg

theorem readsPrefix_decWord14 : Decoder.ReadsPrefix decWord14 := by
  intro f off w fin h
  obtain ⟨hpresent, hclear, rfl, rfl⟩ := decWord14_ok_iff.1 h
  refine ⟨Nat.le_add_right off 2, fun g hg => ?_⟩
  have hm : g.getD off 0 = f.getD off 0 := getD_of_take_eq hg (by omega)
  have hl : g.getD (off + 1) 0 = f.getD (off + 1) 0 := getD_of_take_eq hg (by omega)
  exact decWord14_ok_iff.2 ⟨length_of_take_eq hg hpresent, by rwa [wordClear, hm, hl], by rw [wordAt, wordAt, hm, hl], rfl⟩

theorem readsPrefix_decWords (n : Nat) : Decoder.ReadsPrefix (decWords n) := by
  induction n with
  | zero => exact Decoder.readsPrefix_done []
  | succ n ih =>
    rw [decWords_succ]
    exact readsPrefix_decWord14.andThen fun _ => ih.andThen fun _ => Decoder.readsPrefix_done _

theorem readsPrefix_decSamples : Decoder.ReadsPrefix decSamples := by
  rw [decSamples_eq]
  exact readsPrefix_decWord14.andThen fun n => (readsPrefix_decWords n).andThen fun _ => Decoder.readsPrefix_done _

theorem readsPrefix_decField_marker (field : FieldName) : Decoder.ReadsPrefix (decField field .marker) := by
  intro f off cell fin h
  by_cases hp : off + 1 ≤ f.length
  · rw [decField_marker_of_present hp] at h
    cases h
    exact ⟨Nat.le_add_right off 1, fun g hg => decField_marker_of_present (length_of_take_eq hg hp)⟩
  · rw [decField_marker_of_absent (Nat.lt_of_not_le hp)] at h
    cases h

theorem readsPrefix_decField_byte (field : FieldName) : Decoder.ReadsPrefix (decField field .byte) := by
  intro f off cell fin h
  by_cases hp : off < f.length
  · rw [decField_byte_of_present hp] at h
    cases h
    refine ⟨Nat.le_add_right off 1, fun g hg => ?_⟩
    have hpg : off < g.length := length_of_take_eq hg hp
    have hbyte : g[off] = f[off] := by
      simpa [List.getD_eq_getElem, hp, hpg] using getD_of_take_eq hg (Nat.lt_succ_self off)
    rw [decField_byte_of_present hpg, hbyte]
  · rw [decField_byte_of_absent (Nat.le_of_not_lt hp)] at h
    cases h

theorem readsPrefix_decField_text (field : FieldName) (n : Nat) : Decoder.ReadsPrefix (decField field (.fixedText n)) := by
  intro f off cell fin h
  by_cases hp : off + n ≤ f.length
  · rw [decField_text_of_present hp] at h
    cases h
    refine ⟨Nat.le_add_right off n, fun g hg => ?_⟩
    have hbytes : (g.drop off).take n = (f.drop off).take n := by
      rw [List.take_drop, List.take_drop, hg]
    rw [decField_text_of_present (length_of_take_eq hg hp), hbytes]
  · rw [decField_text_of_absent (Nat.lt_of_not_le hp)] at h
    cases h

theorem readsPrefix_decField (field : FieldName) (d : FieldDesc) : Decoder.ReadsPrefix (decField field d) := by
  cases d with
  | marker => exact readsPrefix_decField_marker field
  | byte => exact readsPrefix_decField_byte field
  | fixedText n => exact readsPrefix_decField_text field n
  | word14 =>
    rw [decField_word14_eq]
    exact readsPrefix_decWord14.andThen fun _ => Decoder.readsPrefix_done _
  | sampleArray14 =>
    rw [decField_samples_eq]
    exact readsPrefix_decSamples.andThen fun _ => Decoder.readsPrefix_done _

theorem readsPrefix_decFields (l : FieldLayout) : Decoder.ReadsPrefix (decFields l) := by
  induction l with
  | nil => exact Decoder.readsPrefix_done []
  | cons fd l ih =>
    rw [decFields_cons]
    exact (readsPrefix_decField fd.1 fd.2).andThen fun _ => ih.andThen fun _ => Decoder.readsPrefix_done _

/-! ### A Marker at the end of a layout -/

/-- R111: a final Marker adds nothing to the record and asks for one more byte, whichever it is. -/
theorem decFields_append_marker (l : FieldLayout) (e : FieldName) (f : Frame) (off : Nat) :
    decFields (l ++ [(e, .marker)]) f off =
      match decFields l f off with
      | .error err => .error err
      | .ok (r, o) => if o < f.length then .ok (r, o + 1) else .error (.truncated o) := by
  induction l generalizing off with
  | nil =>
    by_cases h : off < f.length
    · simp only [List.nil_append, decFields, decField_marker_of_present h, if_pos h]
    · simp only [List.nil_append, decFields, decField_marker_of_absent (show f.length < off + 1 by omega), if_neg h]
  | cons fd l ih =>
    obtain ⟨field, d⟩ := fd
    rw [List.cons_append, decFields, decFields]
    cases decField field d f off with
    | error err => rfl
    | ok x =>
      simp only [ih]
      cases decFields l f x.2 with
      | error err => rfl
      | ok y =>
        by_cases hy : y.2 < f.length
        · simp only [if_pos hy]
        · simp only [if_neg hy]

/-- R273: once a well-formed layout consumes a frame whole, a frame that agrees with it before the end Marker decodes to
the same record and offset if any byte stands in the Marker's place, and is Truncated there otherwise. -/
theorem decodeLayout_of_agree_before_end {l : FieldLayout} {f : Frame} {r : Record} (hl : l.wf = true)
    (h : decodeLayout l f = .ok (r, f.length)) :
    ∃ m, f.length = m + 1 ∧ ∀ g : Frame, g.take m = f.take m →
      decodeLayout l g = if m < g.length then .ok (r, m + 1) else .error (.truncated m) := by
  obtain ⟨mid, e, rfl, -, -⟩ := FieldLayout.wf_split hl
  simp only [decodeLayout, ← List.append_assoc, decFields_append_marker] at h ⊢
  cases hinit : decFields (headerFields ++ mid) f 0 with
  | error err => rw [hinit] at h; cases h
  | ok x =>
    obtain ⟨r', m⟩ := x
    rw [hinit] at h
    dsimp only at h
    split at h
    · obtain ⟨rfl, hm⟩ : r' = r ∧ m + 1 = f.length := by simpa using h
      refine ⟨m, hm.symm, fun g hg => ?_⟩
      rw [(readsPrefix_decFields _ f 0 r' m hinit).2 g hg]
    · cases h

end Sys2Proof.Machine
end

section
/-! PROOFS. The bytes that nothing checks (60_exceptions.md R273). -/

namespace Sys2Proof.Machine

/-- Settles O16: each of the three frames agrees with `f` before the end Marker, and the first two have a byte there. -/
theorem endMarkerAndSurplusAreUnchecked : Obligations.EndMarkerAndSurplusAreUnchecked := by
  intro l f r hl h
  obtain ⟨m, hm, hagree⟩ := decodeLayout_of_agree_before_end hl h
  have hlast : f.dropLast = f.take m := by rw [List.dropLast_eq_take, hm, Nat.add_sub_cancel]
  have hlen : (f.take m).length = m := by rw [List.length_take]; omega
  rw [hlast, hm, Nat.add_sub_cancel]
  refine ⟨fun g => ?_, fun b => ?_, ?_⟩
  · rw [hagree (f ++ g) (List.take_append_of_le_length (by omega)), if_pos (by rw [List.length_append]; omega)]
  · rw [hagree (f.take m ++ [b]) (List.take_left' hlen), if_pos (by rw [List.length_append, hlen]; exact Nat.lt_succ_self m)]
  · rw [hagree (f.take m) (by rw [List.take_take, Nat.min_self]), if_neg (by rw [hlen]; exact Nat.lt_irrefl m)]

end Sys2Proof.Machine
end

section
/-! PROOFS. The rules of whole records (40_field_codec.md section 3): the bytes of a record decode to it under every layout,
and what an encode of a record answers. -/

namespace Sys2Proof.Machine

/-! ### The bytes of a record -/

theorem rawFields_cons {cfg : Config} {i : Nat} {field field' : FieldName} {d : FieldDesc} {l : FieldLayout} {v : Value}
    {r : Record} (hd : d ≠ .marker) :
    rawFields cfg i ((field, d) :: l) ((field', v) :: r) = rawValue d v ++ rawFields cfg (i + 1) l r := by
  rw [rawFields, if_neg hd]

/-- A field that decodes is followed by the rest of its layout (R110). -/
theorem decFields_cons_of_ok {field : FieldName} {d : FieldDesc} {l : FieldLayout} {f : Frame} {off mid fin : Nat}
    {cell r : Record} (hfield : decField field d f off = .ok (cell, mid)) (hrest : decFields l f mid = .ok (r, fin)) :
    decFields ((field, d) :: l) f off = .ok (cell ++ r, fin) := by
  simp only [decFields, hfield, hrest]

/-- R122: the bytes of a record, wherever they stand, decode to it. -/
theorem decFields_rawFields (cfg : Config) (l : FieldLayout) (i : Nat) (r : Record) (pre post : Frame)
    (hr : Record.fits Value.wf l r = true) :
    decFields l (pre ++ rawFields cfg i l r ++ post) pre.length = .ok (r, pre.length + (rawFields cfg i l r).length) := by
  induction l generalizing i r pre with
  | nil => rw [Record.fits_nil hr]; rfl
  | cons fd l ih =>
    obtain ⟨field, d⟩ := fd
    -- one field's bytes, then the rest of the record as the tail of a longer `pre`
    have hstep : ∀ (bs : Frame) (cell r' : Record), Record.fits Value.wf l r' = true →
        decField field d (pre ++ bs ++ (rawFields cfg (i + 1) l r' ++ post)) pre.length =
          .ok (cell, pre.length + bs.length) →
        decFields ((field, d) :: l) (pre ++ (bs ++ rawFields cfg (i + 1) l r') ++ post) pre.length =
          .ok (cell ++ r', pre.length + (bs ++ rawFields cfg (i + 1) l r').length) := by
      intro bs cell r' hr' hfield
      have hrest := ih (i + 1) r' (pre ++ bs) hr'
      simp only [List.append_assoc, List.length_append, Nat.add_assoc] at hfield hrest ⊢
      exact decFields_cons_of_ok hfield hrest
    by_cases hd : d = .marker
    · subst hd
      rw [Record.fits_marker] at hr
      rw [rawFields_marker]
      refine hstep (encMarker cfg i) [] r hr ?_
      rw [encMarker_length]
      exact decField_marker_of_present (by simp [encMarker_length])
    · obtain ⟨v, r', rfl, hv, hr'⟩ := Record.fits_cons hd hr
      rw [rawFields_cons hd]
      exact hstep (rawValue d v) [(field, v)] r' hr' (decField_raw field d v pre _ hv)

/-- R122: the bytes of a record of decodable values decode to it and are consumed whole. -/
theorem decodeLayout_rawFields (cfg : Config) {l : FieldLayout} {r : Record} (hr : Record.fits Value.wf l r = true) :
    decodeLayout l (rawFields cfg 0 l r) = .ok (r, (rawFields cfg 0 l r).length) := by
  simpa [decodeLayout] using decFields_rawFields cfg l 0 r [] [] hr

/-! ### What an encode answers -/

/-- R116: a record of the layout's shape encodes to its bytes, or is out of range. -/
theorem encodeLayout_of_fits (cfg : Config) {l : FieldLayout} {r : Record} (hr : Record.fits Value.hasKind l r = true) :
    encodeLayout cfg l r =
      if Record.fits Value.encodable l r = true then .ok (rawFields cfg 0 l r) else .error .outOfRange := by
  rw [encodeLayout, if_pos hr, encFields_of_fits cfg l 0 r hr]

/-- R116: encode answers a frame for the records of encodable values alone, and the frame is their bytes. -/
theorem encodeLayout_ok_iff {cfg : Config} {l : FieldLayout} {r : Record} {f : Frame} :
    encodeLayout cfg l r = .ok f ↔ Record.fits Value.encodable l r = true ∧ rawFields cfg 0 l r = f := by
  by_cases hr : Record.fits Value.hasKind l r = true
  · rw [encodeLayout_of_fits cfg hr]
    split <;> simp [*]
  · have henc : ¬ Record.fits Value.encodable l r = true := fun h => hr (Record.fits_mono encodable_hasKind l r h)
    simp [encodeLayout, hr, henc]

/-! ### Texts that were cut -/

/-- Only a text may leave the domain and still be encodable (R120, R122). -/
theorem inDomain_eq_encodable {d : FieldDesc} (hd : ∀ n, d ≠ .fixedText n) (v : Value) :
    Value.inDomain d v = Value.encodable d v := by
  cases d with
  | fixedText n => exact absurd rfl (hd n)
  | marker | byte | word14 | sampleArray14 => cases v <;> rfl

/-- R120: an encodable value has the bytes of a value of the domain; a text loses what was cut off. -/
theorem exists_inDomain_of_encodable {d : FieldDesc} {v : Value} (h : Value.encodable d v = true) :
    ∃ v', Value.inDomain d v' = true ∧ rawValue d v' = rawValue d v := by
  cases d with
  | marker | byte | word14 | sampleArray14 => exact ⟨v, (inDomain_eq_encodable (by simp) v).trans h, rfl⟩
  | fixedText n =>
    cases v with
    | text cs =>
      have hkept := (encodable_text_iff n cs).1 h
      refine ⟨.text (cs.take n), ?_, ?_⟩
      · simpa [Value.inDomain] using hkept
      · rw [rawValue, rawValue, List.take_take, Nat.min_self]
    | byte | word | samples => cases h

/-- R123: an encodable record has the bytes of a record of the domain. -/
theorem exists_inDomain_record (cfg : Config) (l : FieldLayout) (i : Nat) (r : Record)
    (h : Record.fits Value.encodable l r = true) :
    ∃ r', Record.fits Value.inDomain l r' = true ∧ rawFields cfg i l r' = rawFields cfg i l r := by
  induction l generalizing i r with
  | nil => exact ⟨r, by rw [Record.fits_nil h]; rfl, rfl⟩
  | cons fd l ih =>
    obtain ⟨field, d⟩ := fd
    by_cases hd : d = .marker
    · subst hd
      rw [Record.fits_marker] at h
      obtain ⟨r', hr', hbytes⟩ := ih (i + 1) r h
      exact ⟨r', by rwa [Record.fits_marker], by rw [rawFields_marker, rawFields_marker, hbytes]⟩
    · obtain ⟨v, tail, rfl, hv, htail⟩ := Record.fits_cons hd h
      obtain ⟨v', hv', hvalue⟩ := exists_inDomain_of_encodable hv
      obtain ⟨r', hr', hbytes⟩ := ih (i + 1) tail htail
      refine ⟨(field, v') :: r', by simp [Record.fits, hd, hv', hr'], ?_⟩
      rw [rawFields_cons hd, rawFields_cons hd, hvalue, hbytes]

/-! ### The bytes of an encoded frame -/

/-- The end Marker's byte stands after the bytes of the record. -/
theorem rawFields_append_marker (cfg : Config) (e : FieldName) (l : FieldLayout) (i : Nat) (r : Record)
    (hr : Record.fits Value.hasKind l r = true) :
    rawFields cfg i (l ++ [(e, .marker)]) r = rawFields cfg i l r ++ encMarker cfg (i + l.length) := by
  induction l generalizing i r with
  | nil => rw [Record.fits_nil hr]; exact List.append_nil _
  | cons fd l ih =>
    obtain ⟨field, d⟩ := fd
    have hindex : i + ((field, d) :: l).length = i + 1 + l.length := by rw [List.length_cons]; omega
    rw [List.cons_append, hindex]
    by_cases hd : d = .marker
    · subst hd
      rw [Record.fits_marker] at hr
      rw [rawFields_marker, rawFields_marker, ih (i + 1) r hr, List.append_assoc]
    · obtain ⟨v, r', rfl, -, hr'⟩ := Record.fits_cons hd hr
      rw [rawFields_cons hd, rawFields_cons hd, ih (i + 1) r' hr', List.append_assoc]

/-- R61: the bytes between the Markers are 0..127. -/
theorem rawFields_small (cfg : Config) (l : FieldLayout) (i : Nat) (r : Record) (hl : ∀ x ∈ l, x.2 ≠ .marker)
    (hr : Record.fits Value.encodable l r = true) : ∀ b ∈ rawFields cfg i l r, b.toNat ≤ 127 := by
  induction l generalizing i r with
  | nil => intro b hb; simp [rawFields] at hb
  | cons fd l ih =>
    obtain ⟨hd, hl'⟩ := List.forall_mem_cons.1 hl
    obtain ⟨v, r', rfl, hv, hr'⟩ := Record.fits_cons hd hr
    rw [rawFields_cons hd]
    exact List.forall_mem_append.2 ⟨rawValue_small _ v hv, ih (i + 1) r' hl' hr'⟩

/-! ### How long an encoded frame is -/

/-- The bytes of a field under its descriptor, its samples aside (R104). -/
def fieldWidth (d : FieldDesc) : Nat := rawLength d (.samples [])

/-- The number of samples that a value holds. -/
def sampleCount : Value → Nat
  | .samples vs => vs.length
  | .byte _ | .word _ | .text _ => 0

/-- A value of another kind than SampleArray14 holds no samples. -/
theorem sampleCount_eq_zero {d : FieldDesc} {v : Value} (h : Value.hasKind d v = true) (hd : d ≠ .sampleArray14) :
    sampleCount v = 0 := by
  cases v with
  | byte | word | text => rfl
  | samples vs =>
    cases d with
    | sampleArray14 => exact absurd rfl hd
    | marker | byte | word14 | fixedText => cases h

theorem rawValue_length_eq_width {d : FieldDesc} {v : Value} (h : Value.hasKind d v = true) :
    (rawValue d v).length = fieldWidth d + 2 * sampleCount v := by
  rw [rawValue_length d v h]
  cases d with
  | sampleArray14 =>
    cases v with
    | samples vs => rfl
    | byte | word | text => cases h
  | marker | byte | word14 | fixedText => rw [sampleCount_eq_zero h nofun]; rfl

/-- R104: the widths of the fields, and two bytes for each sample. -/
theorem rawFields_length (cfg : Config) (l : FieldLayout) (i : Nat) (r : Record)
    (hr : Record.fits Value.hasKind l r = true) :
    (rawFields cfg i l r).length =
      (l.map fun x => fieldWidth x.2).sum + 2 * (r.map fun x => sampleCount x.2).sum := by
  induction l generalizing i r with
  | nil => rw [Record.fits_nil hr]; rfl
  | cons fd l ih =>
    obtain ⟨field, d⟩ := fd
    by_cases hd : d = .marker
    · subst hd
      rw [Record.fits_marker] at hr
      rw [rawFields_marker, List.length_append, encMarker_length, ih (i + 1) r hr, List.map_cons, List.sum_cons,
        Nat.add_assoc]
      rfl
    · obtain ⟨v, r', rfl, hv, hr'⟩ := Record.fits_cons hd hr
      rw [rawFields_cons hd, List.length_append, rawValue_length_eq_width hv, ih (i + 1) r' hr']
      simp only [List.map_cons, List.sum_cons]
      omega

/-- A record of a layout without a SampleArray14 holds no samples. -/
theorem sampleCount_sum_eq_zero (l : FieldLayout) (r : Record) (hl : ∀ x ∈ l, x.2 ≠ .sampleArray14)
    (hr : Record.fits Value.hasKind l r = true) : (r.map fun x => sampleCount x.2).sum = 0 := by
  induction l generalizing r with
  | nil => rw [Record.fits_nil hr]; rfl
  | cons fd l ih =>
    obtain ⟨field, d⟩ := fd
    obtain ⟨hd', hl'⟩ := List.forall_mem_cons.1 hl
    by_cases hd : d = .marker
    · subst hd
      exact ih r hl' (by rwa [Record.fits_marker] at hr)
    · obtain ⟨v, r', rfl, hv, hr'⟩ := Record.fits_cons hd hr
      rw [List.map_cons, List.sum_cons, sampleCount_eq_zero hv hd', ih r' hl' hr']

/-- R94, R97: in a layout whose last field alone is a SampleArray14, that field's samples are all of the record's. -/
theorem sampleCount_sum_of_samples_last (l : FieldLayout) (p : Record)
    (hl : ∀ x ∈ l, x.2 ≠ .sampleArray14 ∧ x.1 ≠ .samples)
    (hp : Record.fits Value.hasKind (l ++ [(.samples, .sampleArray14)]) p = true) :
    (p.map fun x => sampleCount x.2).sum = (p.sampleList .samples).length := by
  induction l generalizing p with
  | nil =>
    obtain ⟨v, r, rfl, hv, hr⟩ := Record.fits_cons (d := .sampleArray14) nofun hp
    rw [Record.fits_nil hr]
    cases v with
    | samples vs => rfl
    | byte | word | text => cases hv
  | cons fd l ih =>
    obtain ⟨field, d⟩ := fd
    obtain ⟨⟨hd', hname⟩, hl'⟩ := List.forall_mem_cons.1 hl
    rw [List.cons_append] at hp
    by_cases hd : d = .marker
    · subst hd
      exact ih p hl' (by rwa [Record.fits_marker] at hp)
    · obtain ⟨v, r, rfl, hv, hr⟩ := Record.fits_cons hd hp
      have hlookup : Record.sampleList ((field, v) :: r) .samples = Record.sampleList r .samples := by
        rw [Record.sampleList, Record.get?, if_neg hname]; rfl
      rw [hlookup, List.map_cons, List.sum_cons, sampleCount_eq_zero hv hd', Nat.zero_add, ih r hl' hr]

/-- R80, R213: a payload between the Header and the end Marker, whatever the configuration. -/
theorem fits_frameLayout (q : FieldDesc → Value → Bool) (cfg : Config) (k : Kind) (payload : FieldLayout) (p : Record) :
    Record.fits q (frameLayout payload) (cfg.header k ++ p) =
      (q .byte (.byte cfg.vendorId.toNat) && q .byte (.byte (cfg.cmd k).toNat) && Record.fits q payload p) := by
  simp [frameLayout, headerFields, Config.header, Record.fits, Record.fits_append_marker, Bool.and_assoc]

/-- R64, R104: four bytes of Header and end Marker, the widths of the payload fields, two bytes for each sample. -/
theorem txEncode_length {cfg : Config} {k : Kind} {payload : FieldLayout} {p : Record} {f : Frame}
    (hl : cfg.layout k = frameLayout payload) (h : txEncode cfg k p = .ok f) :
    Record.fits Value.hasKind payload p = true ∧
      f.length = 4 + (payload.map fun x => fieldWidth x.2).sum + 2 * (p.map fun x => sampleCount x.2).sum := by
  obtain ⟨henc, rfl⟩ := encodeLayout_ok_iff.1 h
  have hshape := Record.fits_mono encodable_hasKind _ _ henc
  rw [rawFields_length cfg _ 0 _ hshape, hl]
  rw [hl, fits_frameLayout, Bool.and_eq_true] at hshape
  refine ⟨hshape.2, ?_⟩
  simp [frameLayout, headerFields, Config.header, fieldWidth, rawLength, sampleCount]
  omega

/-- R64: the length of a frame without samples is its layout's. -/
theorem txEncode_length_of_no_samples {cfg : Config} {k : Kind} {payload : FieldLayout} {p : Record} {f : Frame}
    (hl : cfg.layout k = frameLayout payload) (hsamples : ∀ x ∈ payload, x.2 ≠ .sampleArray14)
    (h : txEncode cfg k p = .ok f) : f.length = 4 + (payload.map fun x => fieldWidth x.2).sum := by
  obtain ⟨hshape, hlen⟩ := txEncode_length hl h
  rw [hlen, sampleCount_sum_eq_zero payload p hsamples hshape, Nat.mul_zero, Nat.add_zero]

/-- R64: a DATA frame has two bytes more for each of its samples. -/
theorem txEncode_length_of_samples {cfg : Config} {k : Kind} {l : FieldLayout} {p : Record} {f : Frame}
    (hl : cfg.layout k = frameLayout (l ++ [(.samples, .sampleArray14)]))
    (hsamples : ∀ x ∈ l, x.2 ≠ .sampleArray14 ∧ x.1 ≠ .samples) (h : txEncode cfg k p = .ok f) :
    f.length = 6 + (l.map fun x => fieldWidth x.2).sum + 2 * (p.sampleList .samples).length := by
  obtain ⟨hshape, hlen⟩ := txEncode_length hl h
  rw [hlen, sampleCount_sum_of_samples_last l p hsamples hshape, List.map_append, List.sum_append]
  simp only [List.map_cons, List.map_nil, List.sum_cons, List.sum_nil, fieldWidth, rawLength, List.length_nil]
  omega

end Sys2Proof.Machine
end

section
/-! PROOFS. The laws of the codec (40_field_codec.md section 3). -/

namespace Sys2Proof.Machine

/-- Settles O14: a record of the domain is encodable, and its bytes decode to it. -/
theorem encodeThenDecodeIsIdentity : Obligations.EncodeThenDecodeIsIdentity := fun cfg l r hr =>
  ⟨_, encodeLayout_ok_iff.2 ⟨Record.fits_mono inDomain_encodable l r hr, rfl⟩,
    decodeLayout_rawFields cfg (Record.fits_mono inDomain_wf l r hr)⟩

/-- Settles O15: the frame is also that of a record of the domain, the one with its texts cut. -/
theorem reencodingAnEncodedFrameIsIdentity : Obligations.ReencodingAnEncodedFrameIsIdentity := by
  intro cfg l r f henc
  obtain ⟨hr, rfl⟩ := encodeLayout_ok_iff.1 henc
  obtain ⟨r', hr', hbytes⟩ := exists_inDomain_record cfg l 0 r hr
  obtain ⟨f', henc', hdec⟩ := encodeThenDecodeIsIdentity cfg l r' hr'
  obtain ⟨-, rfl⟩ := encodeLayout_ok_iff.1 henc'
  rw [hbytes] at henc' hdec
  exact ⟨r', hdec, henc'⟩

/-- Settles O18: between the Markers stand the Header's two bytes and the payload, all of them encodable values. -/
theorem encodedFramesAreSevenBitBetweenMarkers : Obligations.EncodedFramesAreSevenBitBetweenMarkers := by
  intro cfg l r f hl henc
  obtain ⟨mid, e, hsplit, hmid, -⟩ := FieldLayout.wf_split hl
  obtain ⟨hr, rfl⟩ := encodeLayout_ok_iff.1 henc
  have hl' : l = (.start, .marker) :: ((.vendor, .byte) :: (.command, .byte) :: mid ++ [(e, .marker)]) := hsplit
  rw [hl', Record.fits_marker, Record.fits_append_marker] at hr
  have hshape := Record.fits_mono encodable_hasKind _ r hr
  refine ⟨rawFields cfg 1 ((.vendor, .byte) :: (.command, .byte) :: mid) r, ?_,
    rawFields_small cfg _ 1 r (by simpa using hmid) hr⟩
  rw [hl', rawFields_marker, rawFields_append_marker cfg e _ _ r hshape, encMarker_eq, encMarker_eq, if_pos rfl,
    if_neg (by omega)]
  rfl

/-- Settles O19: the layout decides the length; only a DATA frame holds samples, in its last payload field. -/
theorem encodedFrameLengths : Obligations.EncodedFrameLengths := by
  intro cfg p f
  refine ⟨?configuration, ?curve, ?pad, ?monitorStart, ?monitorData, ?monitorEnd, ?scopeStart, ?scopeData, ?scopeEnd⟩
  case configuration => exact txEncode_length_of_no_samples (payload := configurationPayload) rfl (by decide)
  case curve => exact txEncode_length_of_no_samples (payload := curvePayload) rfl (by decide)
  case pad => exact txEncode_length_of_no_samples (payload := padPayload) rfl (by decide)
  case monitorStart => exact txEncode_length_of_no_samples (payload := monitorStartPayload) rfl (by decide)
  case monitorEnd => exact txEncode_length_of_no_samples (payload := monitorEndPayload) rfl (by decide)
  case scopeStart => exact txEncode_length_of_no_samples (payload := scopeStartPayload) rfl (by decide)
  case scopeEnd => exact txEncode_length_of_no_samples (payload := scopeEndPayload) rfl (by decide)
  case monitorData =>
    exact txEncode_length_of_samples (l := [(.padId, .byte), (.channelId, .byte), (.offset, .word14)]) rfl (by decide)
  case scopeData => exact txEncode_length_of_samples (l := [(.probeId, .byte), (.offset, .word14)]) rfl (by decide)

end Sys2Proof.Machine
end

section
/-! PROOFS. The rules of field programs (20_memory.md R71) and of truncated frames (20_memory.md R65): the DEC and the ENC
operations of a layout one after another, and a decoder on fewer bytes than it consumes. -/

namespace Sys2Proof.Machine

/-! ### What a field operation reads and writes -/

theorem afterDec_writes_codec {s s' : State} (h : s.codec = s'.codec) (x : Except DecodeError (Record × Nat)) :
    ∃ c, s.afterDec x = { s with codec := c } ∧ s'.afterDec x = { s' with codec := c } := by
  cases x with
  | ok a => exact ⟨_, rfl, by rw [State.afterDec, h]⟩
  | error e => exact ⟨_, rfl, by rw [State.afterDec, h]⟩

theorem afterEnc_writes_codec {s s' : State} (h : s.codec = s'.codec) (x : Except EncodeStop Frame) :
    ∃ c, s.afterEnc x = { s with codec := c } ∧ s'.afterEnc x = { s' with codec := c } := by
  cases x with
  | ok bs => exact ⟨_, rfl, by rw [State.afterEnc, h]⟩
  | error e => exact ⟨_, rfl, by rw [State.afterEnc, h]⟩

/-! ### Programs -/

/-- R110: an operation that raises no error is followed by the rest of the program. -/
theorem runFieldOps_cons_of_clear {i : Instr} {is : List Instr} {s t : State} (h : exec i s = .next t)
    (ht : t.codec.err = none) : runFieldOps (i :: is) s = runFieldOps is t := by
  simp only [runFieldOps, h, ht, Option.isSome_none, Bool.false_eq_true, if_false]

/-- R110: an operation that raises an error ends the program. -/
theorem runFieldOps_cons_of_error {i : Instr} {is : List Instr} {s t : State} {e : CodecError} (h : exec i s = .next t)
    (ht : t.codec.err = some e) : runFieldOps (i :: is) s = .next t := by
  simp only [runFieldOps, h, ht, Option.isSome_some, if_true]

/-- R110: the DEC operations of a layout leave the record and the offset of `decFields`. -/
theorem runFieldOps_decProgram_of_ok (s : State) (l : FieldLayout) (c : Codec) (r : Record) (off : Nat)
    (hc : c.err = none) (h : decFields l c.rx c.off = .ok (r, off)) :
    runFieldOps (decProgram l) { s with codec := c } =
      .next { s with codec := { c with off := off, cells := c.cells ++ r } } := by
  induction l generalizing c r with
  | nil => cases h; simp [decProgram, runFieldOps]
  | cons fd l ih =>
    obtain ⟨field, d⟩ := fd
    rw [decFields] at h
    cases hfield : decField field d c.rx c.off with
    | error e => rw [hfield] at h; cases h
    | ok x =>
      obtain ⟨cell, mid⟩ := x
      rw [hfield] at h
      dsimp only at h
      cases hrest : decFields l c.rx mid with
      | error e => rw [hrest] at h; cases h
      | ok y =>
        obtain ⟨r', fin⟩ := y
        rw [hrest] at h
        cases h
        have hstep := runFieldOps_cons_of_clear (is := decProgram l)
          (exec_decOp_of_ok (s := { s with codec := c }) hfield) hc
        have hrun := ih { c with off := mid, cells := c.cells ++ cell } r' hc hrest
        rw [List.append_assoc] at hrun
        exact hstep.trans hrun

/-- R110: the DEC operations of a layout raise the error of `decFields`. -/
theorem runFieldOps_decProgram_of_error (s : State) (l : FieldLayout) (c : Codec) (e : DecodeError)
    (hc : c.err = none) (h : decFields l c.rx c.off = .error e) :
    ∃ c' : Codec, runFieldOps (decProgram l) { s with codec := c } = .next { s with codec := c' } ∧
      c'.err = some (CodecError.ofDecode e) := by
  induction l generalizing c with
  | nil => cases h
  | cons fd l ih =>
    obtain ⟨field, d⟩ := fd
    rw [decFields] at h
    cases hfield : decField field d c.rx c.off with
    | error e' =>
      rw [hfield] at h
      cases h
      exact ⟨_, runFieldOps_cons_of_error (exec_decOp_of_error (s := { s with codec := c }) hfield) rfl, rfl⟩
    | ok x =>
      obtain ⟨cell, mid⟩ := x
      rw [hfield] at h
      dsimp only at h
      cases hrest : decFields l c.rx mid with
      | ok y => rw [hrest] at h; cases h
      | error e' =>
        rw [hrest] at h
        cases h
        have hstep := runFieldOps_cons_of_clear (is := decProgram l)
          (exec_decOp_of_ok (s := { s with codec := c }) hfield) hc
        obtain ⟨c', hrun, herr⟩ := ih { c with off := mid, cells := c.cells ++ cell } hc hrest
        exact ⟨c', hstep.trans hrun, herr⟩

/-- A value of its descriptor's kind has an ENC operation. -/
theorem exists_encOp {d : FieldDesc} {v : Value} (h : Value.hasKind d v = true) : ∃ i, encOp d v = some i := by
  cases d <;> cases v <;> cases h <;> exact ⟨_, rfl⟩

theorem encProgram_marker (i : Nat) (field : FieldName) (l : FieldLayout) (r : Record) :
    encProgram i ((field, .marker) :: l) r = .encMarker i :: encProgram (i + 1) l r := by
  cases r <;> rfl

theorem encProgram_cons {i : Nat} {field field' : FieldName} {d : FieldDesc} {l : FieldLayout} {v : Value} {r : Record}
    {op : Instr} (hd : d ≠ .marker) (hop : encOp d v = some op) :
    encProgram i ((field, d) :: l) ((field', v) :: r) = op :: encProgram (i + 1) l r := by
  rw [encProgram, if_neg hd, hop]; rfl

/-- R116: the ENC operations of an encodable record append its bytes. -/
theorem runFieldOps_encProgram_of_encodable (s : State) (l : FieldLayout) (i : Nat) (r : Record) (c : Codec)
    (hc : c.err = none) (hr : Record.fits Value.encodable l r = true) :
    runFieldOps (encProgram i l r) { s with codec := c } =
      .next { s with codec := { c with tx := c.tx ++ rawFields s.cfg i l r } } := by
  induction l generalizing i r c with
  | nil => simp [encProgram, runFieldOps, rawFields]
  | cons fd l ih =>
    obtain ⟨field, d⟩ := fd
    -- an operation that appends its bytes, then the operations of the rest
    have hstep : ∀ (op : Instr) (bs : Frame) (r' : Record), Record.fits Value.encodable l r' = true →
        exec op { s with codec := c } = .next { s with codec := { c with tx := c.tx ++ bs } } →
        runFieldOps (op :: encProgram (i + 1) l r') { s with codec := c } =
          .next { s with codec := { c with tx := c.tx ++ (bs ++ rawFields s.cfg (i + 1) l r') } } := by
      intro op bs r' hr' hop
      have hrun := ih (i + 1) r' { c with tx := c.tx ++ bs } hc hr'
      simpa only [List.append_assoc] using (runFieldOps_cons_of_clear hop hc).trans hrun
    by_cases hd : d = .marker
    · subst hd
      rw [Record.fits_marker] at hr
      rw [encProgram_marker, rawFields_marker]
      exact hstep _ _ r hr rfl
    · obtain ⟨v, r', rfl, hv, hr'⟩ := Record.fits_cons hd hr
      obtain ⟨op, hop⟩ := exists_encOp (encodable_hasKind d v hv)
      rw [encProgram_cons hd hop, rawFields_cons hd]
      exact hstep op _ r' hr' (exec_encOp_of_encodable hop hv _)

/-- R116: the ENC operations of a record with a value out of range raise OutOfRange. -/
theorem runFieldOps_encProgram_of_not_encodable (s : State) (l : FieldLayout) (i : Nat) (r : Record) (c : Codec)
    (hc : c.err = none) (hshape : Record.fits Value.hasKind l r = true)
    (hr : ¬ Record.fits Value.encodable l r = true) :
    ∃ c' : Codec, runFieldOps (encProgram i l r) { s with codec := c } = .next { s with codec := c' } ∧
      c'.err = some .outOfRange := by
  induction l generalizing i r c with
  | nil => rw [Record.fits_nil hshape] at hr; exact absurd rfl hr
  | cons fd l ih =>
    obtain ⟨field, d⟩ := fd
    by_cases hd : d = .marker
    · subst hd
      rw [Record.fits_marker] at hr hshape
      rw [encProgram_marker]
      have hmarker : exec (.encMarker i) { s with codec := c } =
          .next { s with codec := { c with tx := c.tx ++ encMarker s.cfg i } } := rfl
      obtain ⟨c', hrun, herr⟩ := ih (i + 1) r { c with tx := c.tx ++ encMarker s.cfg i } hc hshape hr
      exact ⟨c', (runFieldOps_cons_of_clear hmarker hc).trans hrun, herr⟩
    · obtain ⟨v, r', rfl, hv, hshape'⟩ := Record.fits_cons hd hshape
      obtain ⟨op, hop⟩ := exists_encOp hv
      rw [encProgram_cons hd hop]
      by_cases henc : Value.encodable d v = true
      · have hr' : ¬ Record.fits Value.encodable l r' = true := fun h => hr (by simp [Record.fits, hd, henc, h])
        have hstep := runFieldOps_cons_of_clear (is := encProgram (i + 1) l r')
          (exec_encOp_of_encodable hop henc { s with codec := c }) hc
        obtain ⟨c', hrun, herr⟩ := ih (i + 1) r' { c with tx := c.tx ++ rawValue d v } hc hshape' hr'
        exact ⟨c', hstep.trans hrun, herr⟩
      · exact ⟨_, runFieldOps_cons_of_error (exec_encOp_of_not_encodable hop henc _) rfl, rfl⟩

/-! ### Frames that are too short -/

/-- A decoder that answers is Truncated on every frame cut off between its first and its final offset (R65). -/
def Decoder.TruncatesShort {α : Type} (read : Decoder α) : Prop :=
  ∀ f off a fin, read f off = .ok (a, fin) →
    ∀ n, off ≤ n → n < fin → ∃ o, read (f.take n) off = .error (.truncated o)

theorem Decoder.truncatesShort_done {α : Type} (a : α) : (done a).TruncatesShort := by
  intro f off b fin h n hle hlt
  cases h
  omega

/-- A decoder of a fixed width that is Truncated where the width is not there. -/
theorem Decoder.truncatesShort_of_width {α : Type} {read : Decoder α} (w : Nat)
    (hfin : ∀ f off a fin, read f off = .ok (a, fin) → fin = off + w)
    (hshort : ∀ (f : Frame) off, f.length < off + w → read f off = .error (.truncated off)) : read.TruncatesShort := by
  intro f off a fin h n _ hlt
  have := hfin f off a fin h
  exact ⟨off, hshort _ off ((List.length_take_le n f).trans_lt (by omega))⟩

/-- The cut falls in the bytes of the first decoder, or the first decoder answers and the second one is cut. -/
theorem Decoder.TruncatesShort.andThen {α β : Type} {first : Decoder α} {next : α → Decoder β}
    (hreads : first.ReadsPrefix) (hfirst : first.TruncatesShort) (hnext : ∀ a, (next a).TruncatesShort) :
    (first.andThen next).TruncatesShort := by
  intro f off b fin h n hle hlt
  unfold Decoder.andThen at h ⊢
  cases hf : first f off with
  | error e => rw [hf] at h; cases h
  | ok x =>
    obtain ⟨a, mid⟩ := x
    rw [hf] at h
    by_cases hmid : n < mid
    · obtain ⟨o, ho⟩ := hfirst f off a mid hf n hle hmid
      exact ⟨o, by rw [ho]⟩
    · obtain ⟨o, ho⟩ := hnext a f mid b fin h n (by omega) hlt
      have hcut : (f.take n).take mid = f.take mid := by rw [List.take_take, Nat.min_eq_left (by omega)]
      exact ⟨o, by rw [(hreads f off a mid hf).2 _ hcut]; exact ho⟩

theorem truncatesShort_decWord14 : Decoder.TruncatesShort decWord14 :=
  Decoder.truncatesShort_of_width 2 (fun _ _ _ _ h => (decWord14_ok_iff.1 h).2.2.2)
    fun _ _ h => decWord14_of_absent (Nat.not_le.2 h)

theorem truncatesShort_decWords (n : Nat) : Decoder.TruncatesShort (decWords n) := by
  induction n with
  | zero => exact Decoder.truncatesShort_done []
  | succ n ih =>
    rw [decWords_succ]
    exact truncatesShort_decWord14.andThen readsPrefix_decWord14 fun _ =>
      ih.andThen (readsPrefix_decWords n) fun _ => Decoder.truncatesShort_done _

theorem truncatesShort_decSamples : Decoder.TruncatesShort decSamples := by
  rw [decSamples_eq]
  exact truncatesShort_decWord14.andThen readsPrefix_decWord14 fun n =>
    (truncatesShort_decWords n).andThen (readsPrefix_decWords n) fun _ => Decoder.truncatesShort_done _

/-- A decoder that answers has its whole width in the frame, if it is Truncated where the width is not there. -/
theorem present_of_ok {α : Type} {read : Decoder α} {f : Frame} {off w : Nat} {x : α × Nat}
    (hshort : f.length < off + w → read f off = .error (.truncated off)) (h : read f off = .ok x) :
    off + w ≤ f.length :=
  Nat.le_of_not_lt fun hlt => by cases (hshort hlt).symm.trans h

/-- Two answers of a decoder on the same frame end at one offset. -/
theorem fin_eq {α : Type} {x : Except DecodeError (α × Nat)} {a b : α} {m n : Nat} (ha : x = .ok (a, m))
    (hb : x = .ok (b, n)) : m = n :=
  congrArg Prod.snd (Except.ok.inj (ha.symm.trans hb))

theorem truncatesShort_decField (field : FieldName) (d : FieldDesc) : Decoder.TruncatesShort (decField field d) := by
  cases d with
  | marker =>
    refine Decoder.truncatesShort_of_width 1 (fun f off cell fin h => ?_) fun _ _ => decField_marker_of_absent
    exact fin_eq h (decField_marker_of_present (present_of_ok decField_marker_of_absent h))
  | byte =>
    have hshort : ∀ (f : Frame) off, f.length < off + 1 → decField field .byte f off = .error (.truncated off) :=
      fun _ _ h => decField_byte_of_absent (by omega)
    refine Decoder.truncatesShort_of_width 1 (fun f off cell fin h => ?_) hshort
    exact fin_eq h (decField_byte_of_present (present_of_ok (hshort f off) h))
  | fixedText n =>
    refine Decoder.truncatesShort_of_width n (fun f off cell fin h => ?_) fun _ _ => decField_text_of_absent
    exact fin_eq h (decField_text_of_present (present_of_ok decField_text_of_absent h))
  | word14 =>
    rw [decField_word14_eq]
    exact truncatesShort_decWord14.andThen readsPrefix_decWord14 fun _ => Decoder.truncatesShort_done _
  | sampleArray14 =>
    rw [decField_samples_eq]
    exact truncatesShort_decSamples.andThen readsPrefix_decSamples fun _ => Decoder.truncatesShort_done _

theorem truncatesShort_decFields (l : FieldLayout) : Decoder.TruncatesShort (decFields l) := by
  induction l with
  | nil => exact Decoder.truncatesShort_done []
  | cons fd l ih =>
    rw [decFields_cons]
    exact (truncatesShort_decField fd.1 fd.2).andThen (readsPrefix_decField fd.1 fd.2) fun _ =>
      ih.andThen (readsPrefix_decFields l) fun _ => Decoder.truncatesShort_done _

end Sys2Proof.Machine
end

section
/-! PROOFS. Field operations, field programs and prefixes (40_field_codec.md R110, R116, R126; 20_memory.md R65). -/

namespace Sys2Proof.Machine

/-- Settles O11: each of the ten writes its own result into the storage, which it computes from the storage and, for
ENC_MARKER, the configuration. -/
theorem fieldOperationsReadAndWriteOnlyTheCodec : Obligations.FieldOperationsReadAndWriteOnlyTheCodec := by
  rintro s s' i hcfg hcodec (⟨field, d, rfl⟩ | ⟨n, rfl⟩ | ⟨d, v, hop⟩)
  · obtain ⟨c, hs, hs'⟩ := afterDec_writes_codec hcodec (decField field d s.codec.rx s.codec.off)
    refine ⟨c, by rw [exec_decOp, hs], ?_⟩
    rw [exec_decOp, ← hcodec, hs']
  · obtain ⟨c, hs, hs'⟩ := afterEnc_writes_codec hcodec (.ok (encMarker s.cfg n))
    rw [hcfg] at hs'
    exact ⟨c, congrArg Host.Outcome.next hs, congrArg Host.Outcome.next hs'⟩
  · obtain ⟨c, hs, hs'⟩ := afterEnc_writes_codec hcodec (encValue d v)
    exact ⟨c, by rw [exec_encOp hop, hs], by rw [exec_encOp hop, hs']⟩

/-- Settles O12: the program of a layout is `decFields` from offset 0. -/
theorem decodeIsItsFieldProgram : Obligations.DecodeIsItsFieldProgram := by
  intro s l f
  cases hdec : decodeLayout l f with
  | ok x =>
    obtain ⟨r, off⟩ := x
    refine ⟨_, runFieldOps_decProgram_of_ok s l { Codec.idle with rx := f } r off rfl hdec, rfl, fun r' off' h => ?_, nofun⟩
    cases h; rfl
  | error e =>
    obtain ⟨c, hrun, herr⟩ := runFieldOps_decProgram_of_error s l { Codec.idle with rx := f } e rfl hdec
    refine ⟨_, hrun, rfl, nofun, fun e' h => ?_⟩
    cases h; exact herr

/-- Settles O13: the program of a record appends its bytes, or raises OutOfRange, as `encode` does. -/
theorem encodeIsItsFieldProgram : Obligations.EncodeIsItsFieldProgram := by
  intro s l r hshape
  rw [encodeLayout_of_fits s.cfg hshape]
  by_cases henc : Record.fits Value.encodable l r = true
  · exact ⟨_, runFieldOps_encProgram_of_encodable s l 0 r Codec.idle rfl henc, rfl, .inl ⟨_, if_pos henc, rfl⟩⟩
  · obtain ⟨c, hrun, herr⟩ := runFieldOps_encProgram_of_not_encodable s l 0 r Codec.idle rfl hshape henc
    exact ⟨_, hrun, rfl, .inr ⟨if_neg henc, herr⟩⟩

/-- Settles O17: `decode` reads no byte past its final offset and is Truncated when one before it is cut off; the whole
frame, which is not Truncated, is therefore no shorter than that. -/
theorem decodeDependsOnItsPrefixOnly : Obligations.DecodeDependsOnItsPrefixOnly := by
  intro l f r off h
  have hshort : ∀ n, n < off → ∃ o, decodeLayout l (f.take n) = .error (.truncated o) :=
    fun n => truncatesShort_decFields l f 0 r off h n (Nat.zero_le n)
  refine ⟨Nat.le_of_not_lt fun hlt => ?_, ?_, hshort⟩
  · obtain ⟨o, ho⟩ := hshort f.length hlt
    rw [List.take_length] at ho
    cases ho.symm.trans h
  · exact (readsPrefix_decFields l f 0 r off h).2 _ (by rw [List.take_take, Nat.min_self])

end Sys2Proof.Machine
end

section
/-! PROOFS. The rules of instructions and their frames (30_encoding.md R100, R106): the payload records of instructions, and
what `decode` makes of a frame that begins with a Header. -/

namespace Sys2Proof.Machine

/-! ### Payload records -/

/-- The operands of a frame instruction are read back from its payload record (R144). -/
theorem ofPayload_payload {i : Instr} {k : Kind} (hk : i.kind = some k) : Instr.ofPayload k i.payload = i := by
  cases i with
  | configuration r => exact Laws.OfPayload.configuration r k hk
  | typeDef p => exact Laws.OfPayload.typeDef p k hk
  | curveDef c => exact Laws.OfPayload.curveDef c k hk
  | padDef p => exact Laws.OfPayload.padDef p k hk
  | ready p => exact Laws.OfPayload.ready p k hk
  | monitorStart p c size => exact Laws.OfPayload.monitorStart p c size k hk
  | monitorData p c o vs => exact Laws.OfPayload.monitorData p c o vs k hk
  | monitorEnd p c => exact Laws.OfPayload.monitorEnd p c k hk
  | scopeStart q size => exact Laws.OfPayload.scopeStart q size k hk
  | scopeData q o vs => exact Laws.OfPayload.scopeData q o vs k hk
  | scopeEnd q => exact Laws.OfPayload.scopeEnd q k hk
  | decMarker | decByte | decWord14 | decText | decSamples | encMarker | encByte | encWord14 | encText
  | encSamples | disconnected | connected | hwReset | txEncode => cases hk

/-- The payload record of a well-formed frame instruction is one that a decode can yield (R17, R88 to R98). -/
theorem payload_fits {cfg : Config} {i : Instr} {k : Kind} (hwf : i.wf cfg = true) (hk : i.kind = some k) :
    Record.fits Value.wf (cfg.payloadFields k) i.payload = true := by
  cases i with
  | configuration r => exact Laws.PayloadFits.configuration r cfg k hwf hk
  | typeDef p => exact Laws.PayloadFits.typeDef p cfg k hwf hk
  | curveDef c => exact Laws.PayloadFits.curveDef c cfg k hwf hk
  | padDef p => exact Laws.PayloadFits.padDef p cfg k hwf hk
  | ready p => exact Laws.PayloadFits.ready p cfg k hwf hk
  | monitorStart p c size => exact Laws.PayloadFits.monitorStart p c size cfg k hwf hk
  | monitorData p c o vs => exact Laws.PayloadFits.monitorData p c o vs cfg k hwf hk
  | monitorEnd p c => exact Laws.PayloadFits.monitorEnd p c cfg k hwf hk
  | scopeStart q size => exact Laws.PayloadFits.scopeStart q size cfg k hwf hk
  | scopeData q o vs => exact Laws.PayloadFits.scopeData q o vs cfg k hwf hk
  | scopeEnd q => exact Laws.PayloadFits.scopeEnd q cfg k hwf hk
  | decMarker | decByte | decWord14 | decText | decSamples | encMarker | encByte | encWord14 | encText
  | encSamples | disconnected | connected | hwReset | txEncode => cases hk

section
variable {field : FieldName} {l : FieldLayout} {r : Record}

/-- R112: a decodable Byte cell is some byte's. -/
theorem fits_byte_cons_iff : Record.fits Value.wf ((field, .byte) :: l) r = true ↔
    ∃ (b : Byte) (r' : Record), r = (field, byteValue b) :: r' ∧ Record.fits Value.wf l r' = true := by
  constructor
  · intro h
    obtain ⟨v, r', rfl, hv, hr'⟩ := Record.fits_cons (d := .byte) nofun h
    cases v with
    | byte v =>
      have hrange : 0 ≤ v ∧ v ≤ 255 := by simpa [Value.wf] using hv
      have hback : ((BitVec.ofInt 8 v).toNat : Int) = v := by simp only [BitVec.toNat_ofInt]; omega
      exact ⟨BitVec.ofInt 8 v, r', by rw [byteValue, hback], hr'⟩
    | word | text | samples => cases hv
  · rintro ⟨b, r', rfl, hr'⟩
    simp [Record.fits, byteValue_wf, hr']

/-- R113: a decodable Word14 cell is some word's. -/
theorem fits_word_cons_iff : Record.fits Value.wf ((field, .word14) :: l) r = true ↔
    ∃ (w : Word14) (r' : Record), r = (field, wordValue w) :: r' ∧ Record.fits Value.wf l r' = true := by
  constructor
  · intro h
    obtain ⟨v, r', rfl, hv, hr'⟩ := Record.fits_cons (d := .word14) nofun h
    cases v with
    | word v =>
      have hrange : 0 ≤ v ∧ v ≤ 16383 := by simpa [Value.wf] using hv
      have hback : ((BitVec.ofInt 14 v).toNat : Int) = v := by simp only [BitVec.toNat_ofInt]; omega
      exact ⟨BitVec.ofInt 14 v, r', by rw [wordValue, hback], hr'⟩
    | byte | text | samples => cases hv
  · rintro ⟨w, r', rfl, hr'⟩
    simp [Record.fits, wordValue_wf, hr']

/-- A decodable text is that of some well-formed codes. -/
theorem exists_textValue {n : Nat} {cs : List Int} (h : Value.wf (.fixedText n) (.text cs) = true) :
    ∃ codes : List Byte, textWf n codes = true ∧ textValue codes = .text cs := by
  have hcodes : cs.length ≤ n ∧ ∀ c ∈ cs, 1 ≤ c ∧ c ≤ 255 := by simpa [Value.wf] using h
  refine ⟨cs.map (BitVec.ofInt 8), ?_, congrArg Value.text ?_⟩
  · have hnonzero : ∀ c ∈ cs, BitVec.ofInt 8 c ≠ 0 := fun c hc hz => by
      have := hcodes.2 c hc
      have hzero : (BitVec.ofInt 8 c).toNat = 0 := by rw [hz]; rfl
      rw [BitVec.toNat_ofInt] at hzero
      omega
    simpa [textWf] using ⟨hcodes.1, hnonzero⟩
  · rw [List.map_map]
    refine (List.map_congr_left fun c hc => ?_).trans (List.map_id _)
    have := hcodes.2 c hc
    simp only [Function.comp, BitVec.toNat_ofInt, id]; omega

/-- R114: a decodable text cell is that of some well-formed codes. -/
theorem fits_text_cons_iff {n : Nat} : Record.fits Value.wf ((field, .fixedText n) :: l) r = true ↔
    ∃ (cs : List Byte) (r' : Record), r = (field, textValue cs) :: r' ∧ textWf n cs = true ∧
      Record.fits Value.wf l r' = true := by
  constructor
  · intro h
    obtain ⟨v, r', rfl, hv, hr'⟩ := Record.fits_cons (d := .fixedText n) nofun h
    cases v with
    | text cs =>
      obtain ⟨codes, hcodes, htext⟩ := exists_textValue hv
      exact ⟨codes, r', by rw [htext], hcodes, hr'⟩
    | byte | word | samples => cases hv
  · rintro ⟨cs, r', rfl, hcs, hr'⟩
    simp [Record.fits, textValue_wf hcs, hr']

/-- R115: a decodable sample cell holds a well-formed list. -/
theorem fits_samples_cons_iff : Record.fits Value.wf ((field, .sampleArray14) :: l) r = true ↔
    ∃ (vs : List Int) (r' : Record), r = (field, .samples vs) :: r' ∧ samplesWf vs = true ∧
      Record.fits Value.wf l r' = true := by
  constructor
  · intro h
    obtain ⟨v, r', rfl, hv, hr'⟩ := Record.fits_cons (d := .sampleArray14) nofun h
    cases v with
    | samples vs => exact ⟨vs, r', rfl, hv, hr'⟩
    | byte | word | text => cases hv
  · rintro ⟨vs, r', rfl, hvs, hr'⟩
    simp [Record.fits, samples_wf hvs, hr']

theorem fits_nil_iff : Record.fits Value.wf [] r = true ↔ r = [] :=
  ⟨Record.fits_nil, fun h => h ▸ rfl⟩

end

/-- R88 to R98: a payload record of decodable values is that of a well-formed instruction of its kind. -/
theorem exists_instr_of_payload {cfg : Config} {k : Kind} {p : Record}
    (h : Record.fits Value.wf (cfg.payloadFields k) p = true) :
    ∃ i : Instr, i.kind = some k ∧ i.wf cfg = true ∧ i.payload = p := by
  cases k with
  | type => exact ⟨.typeDef p, rfl, h, rfl⟩
  | ready => exact ⟨.ready p, rfl, h, rfl⟩
  | configuration =>
    replace h : Record.fits Value.wf configurationPayload p = true := h
    simp only [configurationPayload, fits_byte_cons_iff, fits_nil_iff] at h
    obtain ⟨major, _, rfl, minor, _, rfl, patch, _, rfl, rate, _, rfl, pads, _, rfl, sensors, _, rfl, rfl⟩ := h
    exact ⟨.configuration ⟨major, minor, patch, rate, pads, sensors⟩, rfl, rfl, rfl⟩
  | curve =>
    replace h : Record.fits Value.wf curvePayload p = true := h
    simp only [curvePayload, fits_byte_cons_iff, fits_text_cons_iff, fits_nil_iff] at h
    obtain ⟨id, _, rfl, name, _, rfl, hname, rfl⟩ := h
    exact ⟨.curveDef ⟨id, name⟩, rfl, hname, rfl⟩
  | pad =>
    replace h : Record.fits Value.wf padPayload p = true := h
    simp only [padPayload, fits_byte_cons_iff, fits_text_cons_iff, fits_nil_iff] at h
    obtain ⟨id, _, rfl, type, _, rfl, zones, _, rfl, name, _, rfl, hname, scan, _, rfl, mask, _, rfl,
      retrigger, _, rfl, curve, _, rfl, headSensor, _, rfl, headSensitivity, _, rfl, headThreshold, _, rfl,
      headNote, _, rfl, rimSensor, _, rfl, rimSensitivity, _, rfl, rimThreshold, _, rfl, rimNote, _, rfl, rfl⟩ := h
    exact ⟨.padDef ⟨id, type, zones, name, scan, mask, retrigger, curve, headSensor, headSensitivity, headThreshold,
      headNote, rimSensor, rimSensitivity, rimThreshold, rimNote⟩, rfl, hname, rfl⟩
  | monitorStart =>
    replace h : Record.fits Value.wf monitorStartPayload p = true := h
    simp only [monitorStartPayload, fits_byte_cons_iff, fits_word_cons_iff, fits_nil_iff] at h
    obtain ⟨pad, _, rfl, channel, _, rfl, size, _, rfl, rfl⟩ := h
    exact ⟨.monitorStart pad channel size, rfl, rfl, rfl⟩
  | monitorData =>
    replace h : Record.fits Value.wf monitorDataPayload p = true := h
    simp only [monitorDataPayload, fits_byte_cons_iff, fits_word_cons_iff, fits_samples_cons_iff, fits_nil_iff] at h
    obtain ⟨pad, _, rfl, channel, _, rfl, offset, _, rfl, vs, _, rfl, hvs, rfl⟩ := h
    exact ⟨.monitorData pad channel offset vs, rfl, hvs, rfl⟩
  | monitorEnd =>
    replace h : Record.fits Value.wf monitorEndPayload p = true := h
    simp only [monitorEndPayload, fits_byte_cons_iff, fits_nil_iff] at h
    obtain ⟨pad, _, rfl, channel, _, rfl, rfl⟩ := h
    exact ⟨.monitorEnd pad channel, rfl, rfl, rfl⟩
  | scopeStart =>
    replace h : Record.fits Value.wf scopeStartPayload p = true := h
    simp only [scopeStartPayload, fits_byte_cons_iff, fits_word_cons_iff, fits_nil_iff] at h
    obtain ⟨probe, _, rfl, size, _, rfl, rfl⟩ := h
    exact ⟨.scopeStart probe size, rfl, rfl, rfl⟩
  | scopeData =>
    replace h : Record.fits Value.wf scopeDataPayload p = true := h
    simp only [scopeDataPayload, fits_byte_cons_iff, fits_word_cons_iff, fits_samples_cons_iff, fits_nil_iff] at h
    obtain ⟨probe, _, rfl, offset, _, rfl, vs, _, rfl, hvs, rfl⟩ := h
    exact ⟨.scopeData probe offset vs, rfl, hvs, rfl⟩
  | scopeEnd =>
    replace h : Record.fits Value.wf scopeEndPayload p = true := h
    simp only [scopeEndPayload, fits_byte_cons_iff, fits_nil_iff] at h
    obtain ⟨probe, _, rfl, rfl⟩ := h
    exact ⟨.scopeEnd probe, rfl, rfl, rfl⟩

/-! ### What a decode yields -/

/-- R17: a decoded record has an entry of decodable value for each field but the Markers. -/
theorem decFields_fits (l : FieldLayout) (f : Frame) (off : Nat) (r : Record) (fin : Nat)
    (h : decFields l f off = .ok (r, fin)) : Record.fits Value.wf l r = true := by
  induction l generalizing off r fin with
  | nil => cases h; rfl
  | cons fd l ih =>
    obtain ⟨field, d⟩ := fd
    rw [decFields] at h
    cases hfield : decField field d f off with
    | error e => rw [hfield] at h; cases h
    | ok x =>
      obtain ⟨cell, mid⟩ := x
      rw [hfield] at h
      dsimp only at h
      cases hrest : decFields l f mid with
      | error e => rw [hrest] at h; cases h
      | ok y =>
        obtain ⟨r', fin'⟩ := y
        rw [hrest] at h
        cases h
        have hr' := ih mid r' _ hrest
        rcases field_wf hfield with ⟨rfl, rfl⟩ | ⟨hd, v, rfl, hv⟩
        · rwa [List.nil_append, Record.fits_marker]
        · simp [Record.fits, hd, hv, hr']

/-- R81: the two Header bytes come first in the record of a kind's layout. -/
theorem payload_fits_of_layout {cfg : Config} (hadm : cfg.admitted = true) {k : Kind} {r : Record}
    (h : Record.fits Value.wf (cfg.layout k) r = true) :
    Record.fits Value.wf (cfg.payloadFields k) (r.drop 2) = true := by
  obtain ⟨e, hsplit⟩ := layout_split hadm k
  have hl : cfg.layout k =
      (.start, .marker) :: (.vendor, .byte) :: (.command, .byte) :: (cfg.payloadFields k ++ [(e, .marker)]) := hsplit
  simp only [hl, Record.fits_marker, fits_byte_cons_iff, Record.fits_append_marker] at h
  obtain ⟨vendor, _, rfl, command, p, rfl, hp⟩ := h
  exact hp

/-- R17: what the decoder reads is a well-formed instruction of the kind that the command byte names. -/
theorem decode_wf {cfg : Config} {f : Frame} {i : Instr} (hadm : cfg.admitted = true) (h : decode cfg f = .ok i) :
    i.wf cfg = true := by
  obtain ⟨k, r, o, -, -, -, -, hdec, rfl⟩ := decode_inv h
  obtain ⟨i, hk, hwf, hp⟩ := exists_instr_of_payload (payload_fits_of_layout hadm (decFields_fits _ f 0 r o hdec))
  rwa [← hp, ofPayload_payload hk]

/-! ### Frames that begin with the Header of a kind -/

/-- The Header of a kind, in front of any bytes (R81). -/
def headed (cfg : Config) (k : Kind) (tail : Frame) : Frame :=
  cfg.startMarker :: cfg.vendorId :: cfg.cmd k :: tail

/-- Stages 1 and 2 pass a frame with the Header of a kind on to the kind's layout (R141, R142). -/
theorem decode_headed {cfg : Config} (hadm : cfg.admitted = true) (k : Kind) (tail : Frame) :
    decode cfg (headed cfg k tail) =
      ((decodeLayout (cfg.layout k) (headed cfg k tail)).mapError Reject.decodeFailed).map
        fun x => Instr.ofPayload k (x.1.drop 2) := by
  have hkind : cfg.kindOf (Frame.at (headed cfg k tail) 2) = some k := kindOf_cmd hadm k
  rw [decode, if_neg (by simp [headed, Frame.at]), hkind]
  dsimp only
  cases decodeLayout (cfg.layout k) (headed cfg k tail) <;> rfl

/-- The bytes of a record under a kind's layout begin with the kind's Header. -/
theorem rawFields_headed {cfg : Config} (hadm : cfg.admitted = true) (k : Kind) (p : Record) :
    ∃ tail, rawFields cfg 0 (cfg.layout k) (cfg.header k ++ p) = headed cfg k tail := by
  obtain ⟨e, hsplit⟩ := layout_split hadm k
  refine ⟨rawFields cfg 3 (cfg.payloadFields k ++ [(e, .marker)]) p, ?_⟩
  simp [hsplit, headerFields, Config.header, rawFields, rawValue, encMarker, headed]

/-- R144: the frame of a payload record decodes to the instruction with that payload. -/
theorem decode_rawFields {cfg : Config} {i : Instr} {k : Kind} (hadm : cfg.admitted = true) (hwf : i.wf cfg = true)
    (hk : i.kind = some k) :
    decode cfg (rawFields cfg 0 (cfg.layout k) (cfg.header k ++ i.payload)) = .ok i := by
  have hfits : Record.fits Value.wf (cfg.layout k) (cfg.header k ++ i.payload) = true := by
    rw [fits_layout hadm, payload_fits hwf hk, Bool.and_true, Bool.and_eq_true]
    exact ⟨byteValue_wf cfg.vendorId, byteValue_wf (cfg.cmd k)⟩
  have hdec := decodeLayout_rawFields cfg hfits
  obtain ⟨tail, htail⟩ := rawFields_headed hadm k i.payload
  rw [htail] at hdec ⊢
  rw [decode_headed hadm, hdec]
  exact congrArg Except.ok (ofPayload_payload hk)

/-! ### What raises InvalidEncoding -/

/-- R234, R235: a field that is invalid, and not merely cut off, reads a Word14. -/
theorem decField_invalidEncoding {field : FieldName} {d : FieldDesc} {f : Frame} {off o : Nat}
    (h : decField field d f off = .error (.invalidEncoding o)) : d = .word14 ∨ d = .sampleArray14 := by
  cases d with
  | word14 => exact .inl rfl
  | sampleArray14 => exact .inr rfl
  | marker =>
    by_cases hp : off + 1 ≤ f.length
    · cases (decField_marker_of_present hp).symm.trans h
    · cases (decField_marker_of_absent (Nat.lt_of_not_le hp)).symm.trans h
  | byte =>
    by_cases hp : off < f.length
    · cases (decField_byte_of_present hp).symm.trans h
    · cases (decField_byte_of_absent (Nat.le_of_not_lt hp)).symm.trans h
  | fixedText n =>
    by_cases hp : off + n ≤ f.length
    · cases (decField_text_of_present hp).symm.trans h
    · cases (decField_text_of_absent (Nat.lt_of_not_le hp)).symm.trans h

/-- R235: a layout that can be invalid has a field that reads a Word14. -/
theorem decFields_invalidEncoding (l : FieldLayout) (f : Frame) (off o : Nat)
    (h : decFields l f off = .error (.invalidEncoding o)) : ∃ x ∈ l, x.2 = .word14 ∨ x.2 = .sampleArray14 := by
  induction l generalizing off with
  | nil => cases h
  | cons fd l ih =>
    obtain ⟨field, d⟩ := fd
    rw [decFields] at h
    cases hfield : decField field d f off with
    | error e =>
      rw [hfield] at h
      cases h
      exact ⟨_, List.mem_cons_self, decField_invalidEncoding hfield⟩
    | ok x =>
      rw [hfield] at h
      dsimp only at h
      cases hrest : decFields l f x.2 with
      | ok y => rw [hrest] at h; cases h
      | error e =>
        rw [hrest] at h
        cases h
        obtain ⟨y, hy, hword⟩ := ih _ hrest
        exact ⟨y, List.mem_cons_of_mem _ hy, hword⟩

/-! ### A step on an input that asks for an instruction -/

/-- R140: under an admitted configuration the instruction that the next input asks for runs. -/
theorem step_of_fetch {s : State} {input : Input} {rest : List Input} {i : Instr} (hadm : s.cfg.admitted = true)
    (hin : s.inbox = input :: rest) (hfetch : input.fetch s.cfg = .ok i) : step s = exec i (s.take rest) := by
  simp only [step, hin, hadm, hfetch, Bool.true_eq_false, if_false]

end Sys2Proof.Machine
end

section
/-! PROOFS. Instructions, their frames and the step on a frame (30_encoding.md R100, R106; 41_dispatch.md R140 to R145;
45_events_and_tx.md R217). -/

namespace Sys2Proof.Machine

/-- Settles O20: the payload of a well-formed instruction consists of decodable values, so that its bytes decode to it. -/
theorem decodeOfEncodeIsTheInstruction : Obligations.DecodeOfEncodeIsTheInstruction := by
  intro cfg i hadm hwf hkind
  obtain ⟨k, hk⟩ := Option.ne_none_iff_exists'.1 hkind
  exact ⟨_, by rw [encode, hk]; rfl, decode_rawFields hadm hwf hk⟩

/-- Settles O21: a decoded payload record is that of a well-formed instruction. -/
theorem decodedInstructionsAreWellFormed : Obligations.DecodedInstructionsAreWellFormed := by
  intro cfg f i hadm h
  obtain ⟨k, hk⟩ := kind_of_decode h
  exact ⟨decode_wf hadm h, by simp [hk]⟩

/-- Settles O22: stages 1 and 2 have looked at these three bytes, and no two kinds share a command byte. -/
theorem headerSelectsTheKind : Obligations.HeaderSelectsTheKind := by
  intro cfg f i k hadm h
  obtain ⟨k', r, o, hlen, hstart, hvendor, hcmd, -, rfl⟩ := decode_inv h
  rw [ofPayload_kind, Option.some_inj]
  constructor
  · rintro rfl
    exact ⟨hlen, hstart, hvendor, hcmd.symm⟩
  · rintro ⟨-, -, -, hk⟩
    exact cmd_injective hadm (hcmd.trans hk)

/-- Settles O23: each of the six frames by evaluation. -/
theorem writtenWordsDecode : Obligations.WrittenWordsDecode := by
  refine ⟨?_, ?_, ?_, ?_, ?_, ?_⟩ <;> decide

/-- Settles O24: the input asks for the decoded instruction. -/
theorem stepRunsTheDecodedInstruction : Obligations.StepRunsTheDecodedInstruction :=
  fun _ f _ _ hadm hin hdec _ => step_of_fetch (input := .frameIn f) hadm hin hdec

/-- Settles O25: an event and a request ask for the instruction of their name. -/
theorem stepRunsEventsAndRequests : Obligations.StepRunsEventsAndRequests := fun _ _ hadm =>
  ⟨fun hin => step_of_fetch hadm hin rfl, fun hin => step_of_fetch hadm hin rfl, fun hin => step_of_fetch hadm hin rfl,
    fun _ _ hin => step_of_fetch hadm hin rfl⟩

/-- Settles O26: the two branches of `step` in front of the fetch. -/
theorem idleStepHoldsTheState : Obligations.IdleStepHoldsTheState := by
  intro s
  refine ⟨fun hin => ?_, fun hadm hne => ?_⟩
  · simp only [step, hin]
  · obtain ⟨input, rest, hin⟩ := List.exists_cons_of_ne_nil hne
    simp only [step, hin, hadm, if_true]

/-- Settles O29: stage 3 rejects the frame with the error of the kind's layout. -/
theorem malformedFramesAreDropped : Obligations.MalformedFramesAreDropped := by
  intro s k tail rest f hadm hf hin
  have hreject : ∀ e, decodeLayout (s.cfg.layout k) f = .error e → decode s.cfg f = .error (.decodeFailed e) := by
    intro e he
    rw [show f = headed s.cfg k tail from hf] at he ⊢
    rw [decode_headed hadm, he]; rfl
  exact ⟨fun off h => step_of_rejected hadm hin (hreject _ h), fun off h => step_of_rejected hadm hin (hreject _ h)⟩

/-- Settles O30: of the eleven layouts only those of the four kinds have a field that reads a Word14. -/
theorem onlyWord14KindsRaiseInvalidEncoding : Obligations.OnlyWord14KindsRaiseInvalidEncoding := by
  intro cfg k f off htype hready h
  have hword := decFields_invalidEncoding _ f 0 off h
  cases k with
  | monitorStart => exact .inl rfl
  | monitorData => exact .inr (.inl rfl)
  | scopeStart => exact .inr (.inr (.inl rfl))
  | scopeData => exact .inr (.inr (.inr rfl))
  | type => rw [Config.layout, htype] at hword; exact absurd hword (by decide)
  | ready => rw [Config.layout, hready] at hword; exact absurd hword (by decide)
  | configuration | curve | pad | monitorEnd | scopeEnd => exact absurd hword (by rw [Config.layout]; decide)

/-- Settles O37: the frame is rejected, or it is a CONFIGURATION that comes too late, or stage 4 drops it. -/
theorem mismatchedGateIgnoresEveryFrame : Obligations.MismatchedGateIgnoresEveryFrame := by
  intro s f rest hadm hg hin
  cases hdec : decode s.cfg f with
  | error e => exact ⟨_, step_of_rejected hadm hin hdec⟩
  | ok i =>
    have hstep := step_of_fetch (input := .frameIn f) hadm hin hdec
    obtain ⟨k, hk⟩ := kind_of_decode hdec
    by_cases hconf : k = .configuration
    · subst hconf
      cases i with
      | configuration r =>
        exact ⟨_, hstep.trans (exec_configuration_of_decided (s := s.take rest) (by simp [hg]))⟩
      | _ => cases hk
    · obtain ⟨handler, hexec, -⟩ := exec_eq_gated hk hconf
      rw [hexec] at hstep
      exact ⟨_, hstep.trans (gated_of_not_matched (s := s.take rest) (by simp [hg]) handler)⟩

/-- Settles O54: an ill-shaped payload makes an ill-shaped record. -/
theorem illShapedRecordsAreRefused : Obligations.IllShapedRecordsAreRefused := by
  intro s k p hadm hp
  have hshape : ¬ Record.fits Value.hasKind (s.cfg.layout k) (s.cfg.header k ++ p) = true := by
    simp [fits_layout hadm, hp]
  exact exec_txEncode_of_illShaped (by rw [txEncode, encodeLayout, if_neg hshape])

/-- Settles O56: the transmitted frame is that of an instruction with the payload, which it decodes to. -/
theorem loopbackRunsTheTransmittedPayload : Obligations.LoopbackRunsTheTransmittedPayload := by
  intro s k p hadm hvendor hp
  obtain ⟨i, hk, hwf, rfl⟩ := exists_instr_of_payload (Record.fits_mono inDomain_wf _ p hp)
  have henc := Record.fits_mono inDomain_encodable _ _ hp
  have htx := txEncode_of_fits hadm (Record.fits_mono encodable_hasKind _ _ henc)
  rw [if_pos ⟨hvendor, henc⟩] at htx
  exact ⟨_, i, htx, hk, rfl, fun rest hin => step_of_fetch hadm hin (decode_rawFields hadm hwf hk)⟩

end Sys2Proof.Machine
end

section
/-! PROOFS. The rules of the step (41_dispatch.md R140, R147): all that a frame or an event can do to the state, said once,
and what follows from it for the answers, the verdict, the gate and the invariants. -/

namespace Sys2Proof.Machine

/-! ### All that a frame or an event can do -/

/-- The codes of the verdicts with no state change and no event (60_exceptions.md R231). -/
def silentCodes : List Nat := [7, 16, 17, 32, 33, 48, 49, 64, 65, 66, 68]

/-- The two events of the version gate (42_version_gate.md R165). -/
def ConsumerEvent.FromGate : ConsumerEvent → Prop
  | .onConfiguration _ | .onVersionMismatch _ _ => True
  | .onType _ | .onCurve _ | .onPad _ | .onReady | .onStreamComplete _ _ => False

/-- The effects of the frame instructions and the events (R144, R210 to R212), by what they change: nothing; the gate;
one event delivered; one stream record written; one stream completed; everything cleared. -/
inductive Effect (s : State) : State → Prop
  | silent {v : Verdict} (hv : v.code ∈ silentCodes) : Effect s (s.conclude v)
  | matched {r : ConfigRecord} (hg : s.gate = .unknown) (hr : remoteVersion r = s.cfg.localVersion) :
      Effect s { s with
        gate := .matched, activeCfg := some r, events := s.events ++ [.onConfiguration r],
        verdict := some .configMatched }
  | mismatched {r : ConfigRecord} (hg : s.gate = .unknown) :
      Effect s { s with
        gate := .mismatched, events := s.events ++ [.onVersionMismatch s.cfg.localVersion (remoteVersion r)],
        verdict := some (.versionMismatch s.cfg.localVersion (remoteVersion r)) }
  | delivered {e : ConsumerEvent} (he : ¬ e.FromGate) : Effect s (deliver e s)
  | written {k : ChannelKey} {r : StreamRec} {v : Verdict} (hg : s.gate = .matched)
      (hr : (s.stream k).Good → r.Good) (hv : v.code ∉ 80 :: silentCodes) : Effect s ((s.setStream k r).conclude v)
  | completed {k : ChannelKey} {vs : List Int} (hg : s.gate = .matched) :
      Effect s (((s.setStream k StreamRec.idle).emit (.onStreamComplete k vs)).conclude .streamComplete)
  | cleared {v : Verdict} (hv : v.code ∉ 80 :: silentCodes) : Effect s ((resetCore s).conclude v)

/-! ### The records that the stream operations write (10_state.md R36) -/

theorem StreamRec.good_idle : StreamRec.idle.Good where
  cursor_le := Nat.le_refl _
  length_eq := rfl
  size_le := Nat.zero_le _
  idle_eq _ := rfl
  in_range _ hv := nomatch hv

theorem StreamRec.good_opened {size : Nat} (hsize : size ≤ 16383) :
    StreamRec.Good { st := .collecting, declaredSize := size, cursor := 0, truncated := false, samples := [] } where
  cursor_le := Nat.zero_le _
  length_eq := rfl
  size_le := hsize
  idle_eq h := nomatch h
  in_range _ hv := nomatch hv

theorem StreamRec.Good.truncate {r : StreamRec} (hr : r.Good) (hst : r.st = .collecting) :
    StreamRec.Good { r with truncated := true } where
  cursor_le := hr.cursor_le
  length_eq := hr.length_eq
  size_le := hr.size_le
  idle_eq h := nomatch hst.symm.trans h
  in_range := hr.in_range

theorem StreamRec.Good.append {r : StreamRec} (hr : r.Good) (hst : r.st = .collecting) {vs : List Int}
    (hlen : r.cursor + vs.length ≤ r.declaredSize) (hvs : ∀ v ∈ vs, -1024 ≤ v ∧ v ≤ 15359) :
    StreamRec.Good { r with samples := r.samples ++ vs, cursor := r.cursor + vs.length } where
  cursor_le := hlen
  length_eq := by rw [List.length_append, hr.length_eq]
  size_le := hr.size_le
  idle_eq h := nomatch hst.symm.trans h
  in_range := List.forall_mem_append.2 ⟨hr.in_range, hvs⟩

/-! ### The effect of each instruction -/

/-- Stage 4 has its handler's effect, or the silent one of a dropped frame. -/
theorem effect_of_gated {handler : State → State} {s t : State} (hh : s.gate = .matched → Effect s (handler s))
    (h : gated handler s = .next t) : Effect s t := by
  rcases gated_cases handler s with ⟨hg, hrun⟩ | ⟨-, hdrop⟩
  · cases hrun.symm.trans h; exact hh hg
  · cases hdrop.symm.trans h; exact .silent (by decide)

theorem effect_streamStart (k : ChannelKey) {size : Nat} (hsize : size ≤ 16383) {s : State} (hg : s.gate = .matched) :
    Effect s (streamStart k size s) :=
  .written hg (fun _ => StreamRec.good_opened hsize) (by split <;> decide)

theorem effect_streamData (k : ChannelKey) (o : Nat) {vs : List Int} (hvs : ∀ v ∈ vs, -1024 ≤ v ∧ v ≤ 15359) {s : State}
    (hg : s.gate = .matched) : Effect s (streamData k o vs s) := by
  rcases streamData_cases k o vs s with
    ⟨-, h⟩ | ⟨-, -, h⟩ | ⟨-, -, -, -, h⟩ | ⟨hst, -, -, -, h⟩ | ⟨hst, -, -, hlen, h⟩ <;> rw [h]
  · exact .silent (by decide)
  · exact .silent (by decide)
  · exact .silent (by simp [Verdict.code, silentCodes])
  · exact .written hg (fun hr => hr.truncate hst) (by decide)
  · exact .written hg (fun hr => hr.append hst hlen hvs) (by decide)

theorem effect_streamEnd (k : ChannelKey) {s : State} (hg : s.gate = .matched) : Effect s (streamEnd k s) := by
  rcases streamEnd_cases k s with ⟨-, h⟩ | ⟨-, -, -, h⟩ | ⟨-, -, h⟩ <;> rw [h]
  · exact .silent (by decide)
  · exact .completed hg
  · exact .written hg (fun _ => StreamRec.good_idle) (by decide)

theorem effect_configuration {r : ConfigRecord} {s t : State} (h : exec (.configuration r) s = .next t) :
    Effect s t := by
  by_cases hg : s.gate = .unknown
  · by_cases hr : remoteVersion r = s.cfg.localVersion
    · cases (exec_configuration_of_equal hg hr).symm.trans h; exact .matched hg hr
    · cases (exec_configuration_of_different hg hr).symm.trans h; exact .mismatched hg
  · cases (exec_configuration_of_decided hg).symm.trans h
    exact .silent (v := .configIgnored) (by decide)

theorem samples_in_range {vs : List Int} (h : samplesWf vs = true) : ∀ v ∈ vs, -1024 ≤ v ∧ v ≤ 15359 :=
  ((encodable_samples_iff vs).1 h).2

/-- R144, R210 to R212: every frame instruction and every event has one of the effects. -/
theorem effect_of_exec {i : Instr} {s t : State}
    (hi : i.kind ≠ none ∨ i = .disconnected ∨ i = .connected ∨ i = .hwReset) (hwf : i.wf s.cfg = true)
    (h : exec i s = .next t) : Effect s t := by
  cases i with
  | configuration r => exact effect_configuration h
  | typeDef | curveDef | padDef | ready => exact effect_of_gated (fun _ => .delivered (by exact not_false)) h
  | monitorStart _ _ size | scopeStart _ size =>
    exact effect_of_gated (effect_streamStart _ (Nat.le_of_lt_succ size.isLt)) h
  | monitorData | scopeData => exact effect_of_gated (effect_streamData _ _ (samples_in_range hwf)) h
  | monitorEnd | scopeEnd => exact effect_of_gated (effect_streamEnd _) h
  | disconnected | hwReset => cases h; exact .cleared (by decide)
  | connected => cases h; exact .silent (by decide)
  | decMarker | decByte | decWord14 | decText | decSamples | encMarker | encByte | encWord14 | encText
  | encSamples | txEncode => simp [Instr.kind] at hi

/-- R140: a step on an input has one of the effects, or it appends the result of a transmit request. -/
theorem effect_of_step {s t : State} {input : Input} {rest : List Input} (h : step s = .next t)
    (hin : s.inbox = input :: rest) :
    Effect (s.take rest) t ∨ ∃ k p x, input = .txEncode k p ∧ t = (s.take rest).appendTx x := by
  have hadm : s.cfg.admitted = true := step_adm (by simp [hin]) h
  rcases step_cases h hin with ⟨i, hfetch, hexec⟩ | ⟨e, -, rfl⟩
  · cases input with
    | frameIn f =>
      obtain ⟨k, hk⟩ := kind_of_decode hfetch
      exact .inl (effect_of_exec (.inl (by simp [hk])) (decode_wf hadm hfetch) hexec)
    | disconnected => cases hfetch; exact .inl (effect_of_exec (by simp) rfl hexec)
    | connected => cases hfetch; exact .inl (effect_of_exec (by simp) rfl hexec)
    | hwReset => cases hfetch; exact .inl (effect_of_exec (by simp) rfl hexec)
    | txEncode k p =>
      cases hfetch
      obtain ⟨x, rfl, -⟩ := exec_txEncode_appends hexec
      exact .inr ⟨k, p, x, rfl, rfl⟩
  · refine .inl (.silent ?_)
    rcases e with _ | c | (off | off) <;> simp [Reject.verdict, Verdict.code, silentCodes]

/-- R256: a step without an input holds the state. -/
theorem step_of_idle {s t : State} (h : step s = .next t) (hin : s.inbox = []) : t = s := by
  simp only [step, hin] at h
  cases h; rfl

/-! ### What follows for the answers, the verdict and the events -/

/-- R42, R44: an effect leaves the configuration, the inbox, the storage and the transmit results, and answers at most
one event. -/
theorem Effect.frame {s t : State} (h : Effect s t) :
    t.cfg = s.cfg ∧ t.inbox = s.inbox ∧ t.codec = s.codec ∧ t.txOut = s.txOut ∧
      ∃ es, t.events = s.events ++ es ∧ es.length ≤ 1 := by
  have hnone : ∃ es, s.events = s.events ++ es ∧ es.length ≤ 1 := ⟨[], by simp⟩
  cases h with
  | silent | written | cleared => exact ⟨rfl, rfl, rfl, rfl, hnone⟩
  | matched | mismatched | delivered | completed => exact ⟨rfl, rfl, rfl, rfl, [_], rfl, Nat.le_refl 1⟩

/-- R230, R231: an effect records a verdict, and a silent one changes nothing else. -/
theorem Effect.verdict {s t : State} (h : Effect s t) :
    ∃ v, t.verdict = some v ∧ v.code ≠ 80 ∧ (v.code ∈ silentCodes →
      t.gate = s.gate ∧ t.activeCfg = s.activeCfg ∧ t.streams = s.streams ∧ t.events = s.events) := by
  cases h with
  | @silent v hv =>
    refine ⟨v, rfl, fun h80 => ?_, fun _ => ⟨rfl, rfl, rfl, rfl⟩⟩
    rw [h80] at hv
    exact absurd hv (by decide)
  | written _ _ hv | cleared hv =>
    exact ⟨_, rfl, fun h80 => hv (h80 ▸ List.mem_cons_self), fun hs => absurd (List.mem_cons_of_mem _ hs) hv⟩
  | matched | mismatched | delivered | completed =>
    exact ⟨_, rfl, by simp [Verdict.code], fun hs => by simp [Verdict.code, silentCodes] at hs⟩

/-- R165: once the gate is decided, an effect emits no event of the gate. -/
theorem Effect.events_of_decided {s t : State} (h : Effect s t) (hg : s.gate ≠ .unknown) :
    ∃ es, t.events = s.events ++ es ∧ ∀ e ∈ es, ¬ e.FromGate := by
  have hnone : ∃ es, s.events = s.events ++ es ∧ ∀ e ∈ es, ¬ e.FromGate := ⟨[], by simp⟩
  cases h with
  | silent | written | cleared => exact hnone
  | matched hg' | mismatched hg' => exact absurd hg' hg
  | @delivered e he => exact ⟨[e], rfl, List.forall_mem_singleton.2 he⟩
  | completed => exact ⟨[_], rfl, List.forall_mem_singleton.2 nofun⟩

/-! ### What follows for the gate over a run -/

/-- A step that keeps the gate, appends no event of the gate and takes at most the first input. -/
theorem step_of_decided {s t : State} (h : step s = .next t) (hg : s.gate ≠ .unknown)
    (hd : Input.disconnected ∉ s.inbox) (hr : Input.hwReset ∉ s.inbox) :
    KeepsGate s t ∧ t.inbox ⊆ s.inbox ∧ ∃ es, t.events = s.events ++ es ∧ ∀ e ∈ es, ¬ e.FromGate := by
  cases hin : s.inbox with
  | nil =>
    rw [step_of_idle h hin]
    exact ⟨⟨rfl, rfl⟩, hin ▸ List.Subset.refl _, [], by simp⟩
  | cons input rest =>
    rw [hin] at hd hr
    have hreset : ¬ (input = .disconnected ∨ input = .hwReset) := by
      rintro (rfl | rfl)
      · exact hd List.mem_cons_self
      · exact hr List.mem_cons_self
    refine ⟨keepsGate_step h hin (fun _ _ _ _ => hg) hreset, ?_⟩
    rcases effect_of_step h hin with heff | ⟨k, p, x, -, rfl⟩
    · obtain ⟨-, hinbox, -⟩ := heff.frame
      exact ⟨hinbox ▸ List.subset_cons_self _ _, heff.events_of_decided hg⟩
    · exact ⟨List.subset_cons_self _ _, [], by simp [State.appendTx]⟩

/-- A run of at least one step begins with it. -/
theorem run_succ {n : Nat} {s t : State} (h : Host.Core.run Sys2Proof.core (n + 1) s = .next t) :
    ∃ u, step s = .next u ∧ Host.Core.run Sys2Proof.core n u = .next t := by
  have hcore : Sys2Proof.core.step s = step s := rfl
  simp only [Host.Core.run, hcore] at h
  cases hstep : step s with
  | next u => rw [hstep] at h; exact ⟨u, rfl, h⟩
  | fault r => rw [hstep] at h; cases h
  | refused r => rw [hstep] at h; cases h

/-- R264: over a run without a reset a decided gate stays, and no event of the gate is emitted. -/
theorem run_of_decided (n : Nat) {s t : State} (h : Host.Core.run Sys2Proof.core n s = .next t) (hg : s.gate ≠ .unknown)
    (hd : Input.disconnected ∉ s.inbox) (hr : Input.hwReset ∉ s.inbox) :
    KeepsGate s t ∧ ∃ es, t.events = s.events ++ es ∧ ∀ e ∈ es, ¬ e.FromGate := by
  induction n generalizing s with
  | zero =>
    cases h
    exact ⟨⟨rfl, rfl⟩, [], by simp⟩
  | succ n ih =>
    obtain ⟨u, hstep, hrun⟩ := run_succ h
    obtain ⟨⟨hgate, hactive⟩, hinbox, es, hes, hfree⟩ := step_of_decided hstep hg hd hr
    obtain ⟨⟨hgate', hactive'⟩, es', hes', hfree'⟩ :=
      ih hrun (hgate ▸ hg) (fun hm => hd (hinbox hm)) (fun hm => hr (hinbox hm))
    refine ⟨⟨hgate'.trans hgate, hactive'.trans hactive⟩, es ++ es', ?_, List.forall_mem_append.2 ⟨hfree, hfree'⟩⟩
    rw [hes', hes, List.append_assoc]

/-! ### What follows for the invariants -/

/-- The invariants look at the configuration, the gate, the active configuration and the stream table alone. -/
theorem State.Good.of_same {s t : State} (hs : s.Good) (hcfg : t.cfg = s.cfg) (hgate : t.gate = s.gate)
    (hactive : t.activeCfg = s.activeCfg) (hstreams : t.streams = s.streams) : t.Good where
  table := by rw [hstreams]; exact hs.table
  records k := by rw [State.stream, hstreams]; exact hs.records k
  closed hg k := by rw [State.stream, hstreams]; exact hs.closed (hgate ▸ hg) k
  active := by rw [hactive, hgate]; exact hs.active
  version r hr := by rw [hcfg]; exact hs.version r (hactive ▸ hr)

/-- While the gate is Matched the record of a key may be any good one. -/
theorem State.Good.setStream {s : State} (hs : s.Good) (hg : s.gate = .matched) (k : ChannelKey) {r : StreamRec}
    (hr : r.Good) : (s.setStream k r).Good where
  table := Memory.write_wf hs.table k r
  records k' := by
    by_cases hk : k' = k
    · rw [hk, setStream_stream_same]; exact hr
    · rw [setStream_stream_other s hk]; exact hs.records k'
  closed hg' := absurd hg hg'
  active := hs.active
  version := hs.version

/-- The cleared state has the invariants. -/
theorem State.good_resetCore (s : State) : (resetCore s).Good where
  table := ⟨.nil, fun _ he => nomatch he⟩
  records _ := StreamRec.good_idle
  closed _ _ := rfl
  active := ⟨fun h => absurd rfl h, fun h => nomatch h⟩
  version _ h := nomatch h

/-- R36: every effect keeps the invariants. -/
theorem Effect.good {s t : State} (h : Effect s t) (hs : s.Good) : t.Good := by
  cases h with
  | silent | delivered => exact hs.of_same rfl rfl rfl rfl
  | @written k r v hg hr => exact (hs.setStream hg k (hr (hs.records k))).of_same rfl rfl rfl rfl
  | @completed k vs hg => exact (hs.setStream hg k StreamRec.good_idle).of_same rfl rfl rfl rfl
  | cleared => exact (State.good_resetCore s).of_same rfl rfl rfl rfl
  | @matched r hg hr =>
    exact
      { table := hs.table
        records := hs.records
        closed := fun h => absurd rfl h
        active := ⟨fun _ => rfl, fun _ => nofun⟩
        version := fun r' h' => by cases h'; exact hr }
  | mismatched hg =>
    have hnone : s.activeCfg = none := by
      by_contra hsome
      cases hg.symm.trans (hs.active.1 hsome)
    exact
      { table := hs.table
        records := hs.records
        closed := fun _ => hs.closed (by simp [hg])
        active := ⟨fun h => absurd hnone h, fun h => nomatch h⟩
        version := hs.version }

/-! ### That an instruction answers a next state -/

theorem gated_answers (handler : State → State) (s : State) : ∃ t, gated handler s = .next t := by
  rcases gated_cases handler s with ⟨-, h⟩ | ⟨-, h⟩ <;> exact ⟨_, h⟩

/-- R147: every instruction answers a next state, but for a transmit request whose record is ill-shaped. -/
theorem exec_answers {i : Instr} {s : State} (hadm : s.cfg.admitted = true) (hwf : i.wf s.cfg = true) :
    ∃ t, exec i s = .next t := by
  cases i with
  | configuration r =>
    by_cases hg : s.gate = .unknown
    · by_cases hr : remoteVersion r = s.cfg.localVersion
      · exact ⟨_, exec_configuration_of_equal hg hr⟩
      · exact ⟨_, exec_configuration_of_different hg hr⟩
    · exact ⟨_, exec_configuration_of_decided hg⟩
  | typeDef | curveDef | padDef | ready | monitorStart | monitorData | monitorEnd | scopeStart | scopeData
  | scopeEnd => exact gated_answers _ s
  | txEncode k p =>
    have htx := txEncode_of_fits hadm hwf
    split at htx
    · exact ⟨_, exec_txEncode_of_ok htx⟩
    · exact ⟨_, exec_txEncode_of_outOfRange htx⟩
  | decMarker | decByte | decWord14 | decText | decSamples | encMarker | encByte | encWord14 | encText
  | encSamples | disconnected | connected | hwReset => exact ⟨_, rfl⟩

end Sys2Proof.Machine
end

section
/-! PROOFS. What every step keeps and answers (10_state.md R32, R36, R42; 41_dispatch.md R147; 60_exceptions.md R230, R231;
70_reset_and_hazards.md R264). -/

namespace Sys2Proof.Machine

/-- Settles O31: a frame decodes to a well-formed instruction or is rejected, and the other inputs ask for their own. -/
theorem stepIsTotal : Obligations.StepIsTotal := by
  intro s hadm htx
  cases hin : s.inbox with
  | nil => exact ⟨s, by simp only [step, hin]⟩
  | cons input rest =>
    have hrun {i : Instr} (hfetch : input.fetch s.cfg = .ok i) (hwf : i.wf s.cfg = true) : ∃ t, step s = .next t := by
      rw [step_of_fetch hadm hin hfetch]
      exact exec_answers (s := s.take rest) hadm hwf
    cases input with
    | frameIn f =>
      cases hdec : decode s.cfg f with
      | ok i => exact hrun hdec (decode_wf hadm hdec)
      | error e => exact ⟨_, step_of_rejected hadm hin hdec⟩
    | disconnected | connected | hwReset => exact hrun rfl rfl
    | txEncode k p => exact hrun rfl (htx k p (by rw [hin]; rfl))

/-- Settles O32: the step takes its input, and the effect or the transmit result adds at most one answer. -/
theorem stepTakesOneInputAndEmitsAtMostOneEvent : Obligations.StepTakesOneInputAndEmitsAtMostOneEvent := by
  intro s t h
  cases hin : s.inbox with
  | nil =>
    rw [step_of_idle h hin]
    exact ⟨rfl, hin, fun hne => absurd rfl hne, ⟨[], by simp⟩, [], by simp⟩
  | cons input rest =>
    rcases effect_of_step h hin with heff | ⟨k, p, x, -, rfl⟩
    · obtain ⟨hcfg, hinbox, hcodec, htx, hevents⟩ := heff.frame
      exact ⟨hcfg, hinbox, fun _ => hcodec, hevents, [], by simp [htx]⟩
    · exact ⟨rfl, rfl, fun _ => rfl, ⟨[], by simp [State.appendTx]⟩, [x], rfl, Nat.le_refl 1⟩

/-- Settles O33: the input is no transmit request, so that the step has one of the effects. -/
theorem silentVerdictsChangeNothing : Obligations.SilentVerdictsChangeNothing := by
  intro s t input rest h hin hne
  rcases effect_of_step h hin with heff | ⟨k, p, x, rfl, -⟩
  · exact heff.verdict
  · exact absurd rfl (hne k p)

/-- Settles O38: the run's invariant is that the gate is decided and no reset is in the inbox. -/
theorem handshakeIsTerminalUntilReset : Obligations.HandshakeIsTerminalUntilReset := by
  intro n s t hg hd hr h
  obtain ⟨⟨hgate, hactive⟩, es, hes, hfree⟩ := run_of_decided n h hg hd hr
  exact ⟨hgate, hactive, es, hes, fun r hm => hfree _ hm trivial, fun a b hm => hfree _ hm trivial⟩

/-- Settles O58: the reset state is a cleared one. -/
theorem resetIsGood : Obligations.ResetIsGood :=
  (State.good_resetCore State.reset).of_same rfl rfl rfl rfl

/-- Settles O59: idle steps hold the state, effects keep the invariants, and no invariant looks at a transmit result. -/
theorem everyStepKeepsTheInvariants : Obligations.EveryStepKeepsTheInvariants := by
  intro s t hs h
  cases hin : s.inbox with
  | nil => rwa [step_of_idle h hin]
  | cons input rest =>
    have htaken : (s.take rest).Good := hs.of_same rfl rfl rfl rfl
    rcases effect_of_step h hin with heff | ⟨k, p, x, -, rfl⟩
    · exact heff.good htaken
    · exact htaken.of_same rfl rfl rfl rfl

/-- Settles O60: a field operation writes the storage alone and a transmit request its result alone; the other
instructions have one of the effects. -/
theorem everyInstructionKeepsTheInvariants : Obligations.EveryInstructionKeepsTheInvariants := by
  intro i s t hwf hs h
  cases i with
  | decMarker | decByte | decWord14 | decText | decSamples =>
    cases h
    exact hs.of_same (afterDec_cfg s _) (afterDec_gate s _) (afterDec_activeCfg s _) (afterDec_streams s _)
  | encMarker | encByte | encWord14 | encText | encSamples =>
    cases h
    exact hs.of_same (afterEnc_cfg s _) (afterEnc_gate s _) (afterEnc_activeCfg s _) (afterEnc_streams s _)
  | txEncode k p =>
    obtain ⟨x, rfl⟩ := tx_shape h
    exact hs.of_same rfl rfl rfl rfl
  | disconnected | connected | hwReset => exact (effect_of_exec (by simp) hwf h).good hs
  | configuration | typeDef | curveDef | padDef | ready | monitorStart | monitorData | monitorEnd | scopeStart
  | scopeData | scopeEnd => exact (effect_of_exec (.inl (by simp [Instr.kind])) hwf h).good hs

end Sys2Proof.Machine
end

section
/-! PROOFS. The rules of whole streams (44_stream_commands.md section 4): the record of a key over a list of DATA frames, what
a stream command reads and leaves alone, and the canonical table. -/

namespace Sys2Proof.Machine

/-! ### What a stream command leaves alone -/

/-- Only the record of `k` and the verdict may differ. -/
structure KeepsBut (k : ChannelKey) (s t : State) : Prop where
  others : ∀ k', k' ≠ k → t.stream k' = s.stream k'
  frame : t = { s with streams := t.streams, verdict := t.verdict }

theorem KeepsBut.refl (k : ChannelKey) (s : State) : KeepsBut k s s := ⟨fun _ _ => rfl, rfl⟩

theorem KeepsBut.gate {k : ChannelKey} {s t : State} (h : KeepsBut k s t) : t.gate = s.gate := by rw [h.frame]

theorem KeepsBut.cfg {k : ChannelKey} {s t : State} (h : KeepsBut k s t) : t.cfg = s.cfg := by rw [h.frame]

theorem KeepsBut.events {k : ChannelKey} {s t : State} (h : KeepsBut k s t) : t.events = s.events := by rw [h.frame]

theorem KeepsBut.trans {k : ChannelKey} {s t u : State} (h : KeepsBut k s t) (h' : KeepsBut k t u) :
    KeepsBut k s u where
  others k' hk := (h'.others k' hk).trans (h.others k' hk)
  frame := by rw [h'.frame, h.frame]

theorem keepsBut_conclude (k : ChannelKey) (s : State) (v : Verdict) : KeepsBut k s (s.conclude v) :=
  ⟨fun _ _ => rfl, rfl⟩

theorem keepsBut_write (k : ChannelKey) (s : State) (r : StreamRec) (v : Verdict) :
    KeepsBut k s ((s.setStream k r).conclude v) :=
  ⟨fun _ hk => setStream_stream_other s hk r, rfl⟩

/-! ### The record of a key between START and END -/

/-- The record of a key that declared `size` samples and holds `vs`. -/
def collected (size : Nat) (vs : List Int) (truncated : Bool) : StreamRec :=
  { st := .collecting, declaredSize := size, cursor := vs.length, truncated := truncated, samples := vs }

/-- START opens a record without samples (R182). -/
theorem exec_startOf_collected {s : State} (hs : s.gate = .matched) (k : ChannelKey) (size : Word14) :
    ∃ t, exec (startOf k size) s = .next t ∧ t.stream k = collected size.toNat [] false ∧ KeepsBut k s t := by
  have hstart := exec_startOf_of_matched hs k size
  rw [streamStart_eq] at hstart
  exact ⟨_, hstart, setStream_stream_same s k (collected size.toNat [] false), keepsBut_write k s _ _⟩

/-- The samples of a longer list of DATA frames. -/
theorem samplesOf_cons (x : Word14 × List Int) (frames : List (Word14 × List Int)) :
    samplesOf (x :: frames) = x.2 ++ samplesOf frames := rfl

theorem samplesOf_length_le {kept frames : List (Word14 × List Int)} (h : kept.Sublist frames) :
    (samplesOf kept).length ≤ (samplesOf frames).length :=
  (h.map Prod.snd).flatten.length_le

section
variable {s : State} {k : ChannelKey} {size : Nat} {vs : List Int}

/-- R183: a DATA frame at an accepted offset that fits is appended. -/
theorem streamData_appends {o : Nat} {xs : List Int} (hr : s.stream k = collected size vs false)
    (hoff : s.cfg.offsetPolicy = .ignore ∨ o = vs.length) (hlen : vs.length + xs.length ≤ size) :
    (streamData k o xs s).stream k = collected size (vs ++ xs) false ∧ KeepsBut k s (streamData k o xs s) := by
  have hdata := streamData_of_fits (k := k) (o := o) (vs := xs) (s := s) (by rw [hr]; rfl) (by rw [hr]; rfl)
    (by rw [hr]; exact hoff) (by rw [hr]; exact hlen)
  rw [hdata]
  refine ⟨?_, keepsBut_write k s _ _⟩
  rw [conclude_stream, setStream_stream_same, hr]
  simp [collected]

/-- R183: whatever its offset, a DATA frame is appended whole or leaves the samples as they are. -/
theorem streamData_collected {b : Bool} (o : Nat) (xs : List Int) (hr : s.stream k = collected size vs b) :
    KeepsBut k s (streamData k o xs s) ∧ ∃ b', (streamData k o xs s).stream k = collected size vs b' ∨
      (streamData k o xs s).stream k = collected size (vs ++ xs) b' := by
  rcases streamData_cases k o xs s with
    ⟨-, h⟩ | ⟨-, -, h⟩ | ⟨-, -, -, -, h⟩ | ⟨-, -, -, -, h⟩ | ⟨-, -, -, -, h⟩ <;> rw [h]
  · exact ⟨keepsBut_conclude k s _, b, .inl hr⟩
  · exact ⟨keepsBut_conclude k s _, b, .inl hr⟩
  · exact ⟨keepsBut_conclude k s _, b, .inl hr⟩
  · refine ⟨keepsBut_write k s _ _, true, .inl ?_⟩
    rw [conclude_stream, setStream_stream_same, hr]; rfl
  · refine ⟨keepsBut_write k s _ _, b, .inr ?_⟩
    rw [conclude_stream, setStream_stream_same, hr]
    simp [collected]

end

/-! ### Lists of DATA frames -/

/-- The DATA commands of a key, in order. -/
def dataCommands (k : ChannelKey) (frames : List (Word14 × List Int)) : List Instr :=
  frames.map fun x => dataOf k x.1 x.2

theorem streamOf_eq (k : ChannelKey) (size : Word14) (frames : List (Word14 × List Int)) :
    streamOf k size frames = startOf k size :: (dataCommands k frames ++ [endOf k]) := rfl

theorem runInstrs_cons {i : Instr} {is : List Instr} {s t : State} (h : exec i s = .next t) :
    runInstrs (i :: is) s = runInstrs is t := by
  simp only [runInstrs, h]

theorem runInstrs_dataCommands_cons {s : State} (hs : s.gate = .matched) (k : ChannelKey) (x : Word14 × List Int)
    (frames : List (Word14 × List Int)) :
    runInstrs (dataCommands k (x :: frames)) s = runInstrs (dataCommands k frames) (streamData k x.1.toNat x.2 s) :=
  runInstrs_cons (exec_dataOf_of_matched hs k x.1 x.2)

/-- R196: DATA frames that fit, with offsets as the policy asks, are appended in order. -/
theorem runInstrs_dataCommands_appends (k : ChannelKey) (size : Nat) (frames : List (Word14 × List Int)) (s : State)
    (vs : List Int) (hs : s.gate = .matched) (hr : s.stream k = collected size vs false)
    (hoff : s.cfg.offsetPolicy = .ignore ∨
      ∀ pre x post, frames = pre ++ x :: post → x.1.toNat = vs.length + (samplesOf pre).length)
    (hlen : vs.length + (samplesOf frames).length ≤ size) :
    ∃ t, runInstrs (dataCommands k frames) s = .next t ∧
      t.stream k = collected size (vs ++ samplesOf frames) false ∧ KeepsBut k s t := by
  induction frames generalizing s vs with
  | nil => exact ⟨s, rfl, by simpa [samplesOf] using hr, .refl k s⟩
  | cons x frames ih =>
    rw [samplesOf_cons, List.length_append] at hlen
    have hfirst : s.cfg.offsetPolicy = .ignore ∨ x.1.toNat = vs.length :=
      hoff.imp_right fun h => h [] x frames rfl
    obtain ⟨hr', hkeep⟩ := streamData_appends (xs := x.2) hr hfirst (by omega)
    obtain ⟨t, hrun, ht, hkeep'⟩ := ih _ (vs ++ x.2) (hkeep.gate.trans hs) hr'
      (by
        rw [hkeep.cfg]
        refine hoff.imp_right fun h pre y post hsplit => ?_
        rw [h (x :: pre) y post (by rw [hsplit]; rfl), samplesOf_cons]
        simp only [List.length_append]
        omega)
      (by rw [List.length_append]; omega)
    refine ⟨t, (runInstrs_dataCommands_cons hs k x frames).trans hrun, ?_, hkeep.trans hkeep'⟩
    rw [ht, samplesOf_cons, List.append_assoc]

/-- R183: after any DATA frames the record holds the samples of some of them, whole and in arrival order. -/
theorem runInstrs_dataCommands_collected (k : ChannelKey) (size : Nat) (frames : List (Word14 × List Int)) (s : State)
    (vs : List Int) (b : Bool) (hs : s.gate = .matched) (hr : s.stream k = collected size vs b) :
    ∃ t kept b', runInstrs (dataCommands k frames) s = .next t ∧ kept.Sublist frames ∧
      t.stream k = collected size (vs ++ samplesOf kept) b' ∧ KeepsBut k s t := by
  induction frames generalizing s vs b with
  | nil => exact ⟨s, [], b, rfl, .slnil, by simpa [samplesOf] using hr, .refl k s⟩
  | cons x frames ih =>
    have hstep := runInstrs_dataCommands_cons hs k x frames
    obtain ⟨hkeep, b₁, hsame | happended⟩ := streamData_collected x.1.toNat x.2 hr
    · obtain ⟨t, kept, b', hrun, hsub, ht, hkeep'⟩ := ih _ vs b₁ (hkeep.gate.trans hs) hsame
      exact ⟨t, kept, b', hstep.trans hrun, hsub.cons x, ht, hkeep.trans hkeep'⟩
    · obtain ⟨t, kept, b', hrun, hsub, ht, hkeep'⟩ := ih _ (vs ++ x.2) b₁ (hkeep.gate.trans hs) happended
      refine ⟨t, x :: kept, b', hstep.trans hrun, hsub.cons_cons x, ?_, hkeep.trans hkeep'⟩
      rw [ht, samplesOf_cons, List.append_assoc]

/-- R187: in a truncated stream every DATA frame is dropped. -/
theorem runInstrs_dataCommands_of_truncated (k : ChannelKey) (frames : List (Word14 × List Int)) (s : State)
    (hs : s.gate = .matched) (hst : (s.stream k).st = .collecting) (ht : (s.stream k).truncated = true) :
    ∃ v, runInstrs (dataCommands k frames) s = .next { s with verdict := v } := by
  induction frames generalizing s with
  | nil => exact ⟨s.verdict, rfl⟩
  | cons x frames ih =>
    have hstep := runInstrs_dataCommands_cons hs k x frames
    rw [streamData_of_truncated hst ht] at hstep
    obtain ⟨v, hrun⟩ := ih (s.conclude .streamPoisoned) hs hst ht
    exact ⟨v, hstep.trans hrun⟩

/-! ### The END of a stream -/

/-- A run of commands followed by one more. -/
theorem runInstrs_append_singleton {is : List Instr} {i : Instr} {s t : State} {x : Host.Outcome State Fault Refusal}
    (h : runInstrs is s = .next t) (hi : exec i t = x) : runInstrs (is ++ [i]) s = x := by
  rw [runInstrs_append is [i] s t h, runInstrs, hi]
  cases x <;> rfl

section
variable {s t : State} {k : ChannelKey}

/-- What an END leaves of the state at the START: the key is IDLE, and only the verdict and `es` are new. -/
theorem ended_frame (hkeep : KeepsBut k s t) {es : List ConsumerEvent} {v : Verdict}
    {x : Host.Outcome State Fault Refusal}
    (h : x = .next { t.setStream k StreamRec.idle with events := es, verdict := some v }) :
    ∃ u, x = .next u ∧ u.stream k = StreamRec.idle ∧ (∀ k', k' ≠ k → u.stream k' = s.stream k') ∧
      u = { s with streams := u.streams, events := es, verdict := some v } := by
  obtain ⟨u, hu, hidle, hothers, hframe⟩ := next_of_record_written h
  refine ⟨u, hu, hidle, fun k' hk => (hothers k' hk).trans (hkeep.others k' hk), ?_⟩
  rw [hframe, hkeep.frame]

/-- R184: the END of a whole stream delivers its samples. -/
theorem exec_endOf_of_complete {size : Nat} {vs : List Int} (hs : t.gate = .matched)
    (hr : t.stream k = collected size vs false) (hfull : vs.length = size) :
    exec (endOf k) t = .next { t.setStream k StreamRec.idle with
      events := t.events ++ [.onStreamComplete k vs], verdict := some .streamComplete } := by
  rw [exec_endOf_of_matched hs, streamEnd_of_complete (by rw [hr]; rfl) (by rw [hr]; rfl) (by rw [hr]; exact hfull), hr]
  rfl

/-- R184: the END of any other collecting stream delivers nothing. -/
theorem exec_endOf_of_incomplete (hs : t.gate = .matched) (hst : (t.stream k).st = .collecting)
    (hpart : (t.stream k).truncated = true ∨ (t.stream k).cursor ≠ (t.stream k).declaredSize) :
    exec (endOf k) t = .next { t.setStream k StreamRec.idle with
      events := t.events, verdict := some .streamIncomplete } := by
  rw [exec_endOf_of_matched hs, streamEnd_of_incomplete hst hpart]
  rfl

end

/-! ### What a stream command reads -/

/-- Two states that agree on what a command of the key reads (R195). -/
structure AgreeOn (k : ChannelKey) (s s' : State) : Prop where
  cfg : s.cfg = s'.cfg
  gate : s.gate = s'.gate
  record : s.stream k = s'.stream k

/-- `t` and `t'` come from `s` and `s'` with the same record of the key, verdict and new events. -/
def SameAnswer (k : ChannelKey) (s s' t t' : State) : Prop :=
  t.stream k = t'.stream k ∧ t.verdict = t'.verdict ∧ ∃ es, t.events = s.events ++ es ∧ t'.events = s'.events ++ es

section
variable {k : ChannelKey} {s s' : State}

theorem sameAnswer_conclude (hr : s.stream k = s'.stream k) (v : Verdict) :
    SameAnswer k s s' (s.conclude v) (s'.conclude v) :=
  ⟨hr, rfl, [], by simp, by simp⟩

theorem sameAnswer_write (r : StreamRec) (v : Verdict) :
    SameAnswer k s s' ((s.setStream k r).conclude v) ((s'.setStream k r).conclude v) :=
  ⟨by simp only [conclude_stream, setStream_stream_same], rfl, [], by simp, by simp⟩

theorem sameAnswer_streamStart (h : AgreeOn k s s') (size : Nat) :
    SameAnswer k s s' (streamStart k size s) (streamStart k size s') := by
  rw [streamStart_eq, streamStart_eq, h.record]
  exact sameAnswer_write _ _

theorem sameAnswer_streamData (h : AgreeOn k s s') (o : Nat) (vs : List Int) :
    SameAnswer k s s' (streamData k o vs s) (streamData k o vs s') := by
  simp only [streamData, h.record, h.cfg]
  split_ifs
  · exact sameAnswer_conclude h.record .streamNotCollecting
  · exact sameAnswer_conclude h.record .streamPoisoned
  · exact sameAnswer_conclude h.record (.streamOffsetMismatch o (s'.stream k).cursor)
  · exact sameAnswer_write _ .streamOverflow
  · exact sameAnswer_write _ .streamAppended

theorem sameAnswer_streamEnd (h : AgreeOn k s s') : SameAnswer k s s' (streamEnd k s) (streamEnd k s') := by
  simp only [streamEnd, h.record]
  split_ifs
  · exact sameAnswer_conclude h.record .streamEndIdle
  · exact ⟨by simp, rfl, [_], rfl, rfl⟩
  · exact sameAnswer_write _ .streamIncomplete

/-- Stage 4 answers alike in two states with equal gate. -/
theorem sameAnswer_gated {handler : State → State} (h : AgreeOn k s s')
    (hh : SameAnswer k s s' (handler s) (handler s')) :
    ∃ t t', gated handler s = .next t ∧ gated handler s' = .next t' ∧ SameAnswer k s s' t t' := by
  by_cases hs : s.gate = .matched
  · exact ⟨_, _, gated_matched hs, gated_matched (h.gate ▸ hs), hh⟩
  · exact ⟨_, _, gated_of_not_matched hs handler, gated_of_not_matched (h.gate ▸ hs) handler,
      sameAnswer_conclude h.record .gated⟩

/-- R195: every stream command answers alike in two states that agree on what it reads. -/
theorem sameAnswer_exec {i : Instr} (hi : StreamCommand k i) (h : AgreeOn k s s') :
    ∃ t t', exec i s = .next t ∧ exec i s' = .next t' ∧ SameAnswer k s s' t t' := by
  cases hi with
  | start size => rw [exec_startOf, exec_startOf]; exact sameAnswer_gated h (sameAnswer_streamStart h _)
  | data offset vs => rw [exec_dataOf, exec_dataOf]; exact sameAnswer_gated h (sameAnswer_streamData h _ vs)
  | finish => rw [exec_endOf, exec_endOf]; exact sameAnswer_gated h (sameAnswer_streamEnd h)

end

/-! ### What a stream command leaves to the other keys -/

/-- `t` differs from `s` in the record of `k`, and its table is in canonical form if that of `s` is. -/
structure LeavesOthers (k : ChannelKey) (s t : State) : Prop where
  cfg : t.cfg = s.cfg
  gate : t.gate = s.gate
  others : ∀ k', k' ≠ k → t.stream k' = s.stream k'
  table : Memory.wf s.streams → Memory.wf t.streams

section
variable {k : ChannelKey} {s : State}

theorem leavesOthers_conclude (v : Verdict) : LeavesOthers k s (s.conclude v) := ⟨rfl, rfl, fun _ _ => rfl, id⟩

theorem leavesOthers_write (r : StreamRec) (es : List ConsumerEvent) (v : Option Verdict) :
    LeavesOthers k s { s.setStream k r with events := es, verdict := v } :=
  ⟨rfl, rfl, fun _ hk => setStream_stream_other s hk r, fun h => Memory.write_wf h k r⟩

theorem leavesOthers_streamData (o : Nat) (vs : List Int) : LeavesOthers k s (streamData k o vs s) := by
  rcases streamData_cases k o vs s with
    ⟨-, h⟩ | ⟨-, -, h⟩ | ⟨-, -, -, -, h⟩ | ⟨-, -, -, -, h⟩ | ⟨-, -, -, -, h⟩ <;> rw [h]
  · exact leavesOthers_conclude _
  · exact leavesOthers_conclude _
  · exact leavesOthers_conclude _
  · exact leavesOthers_write _ _ _
  · exact leavesOthers_write _ _ _

theorem leavesOthers_streamEnd : LeavesOthers k s (streamEnd k s) := by
  rcases streamEnd_cases k s with ⟨-, h⟩ | ⟨-, -, -, h⟩ | ⟨-, -, h⟩ <;> rw [h]
  · exact leavesOthers_conclude _
  · exact leavesOthers_write StreamRec.idle (s.events ++ [.onStreamComplete k (s.stream k).samples]) _
  · exact leavesOthers_write _ _ _

theorem leavesOthers_of_gated {handler : State → State} {t : State} (hh : LeavesOthers k s (handler s))
    (h : gated handler s = .next t) : LeavesOthers k s t := by
  rcases gated_cases handler s with ⟨-, hrun⟩ | ⟨-, hdrop⟩
  · cases hrun.symm.trans h; exact hh
  · cases hdrop.symm.trans h; exact leavesOthers_conclude _

/-- R195: a stream command writes its own key's record alone. -/
theorem leavesOthers_exec {i : Instr} {t : State} (hi : StreamCommand k i) (h : exec i s = .next t) :
    LeavesOthers k s t := by
  cases hi with
  | start size =>
    rw [exec_startOf] at h
    exact leavesOthers_of_gated (leavesOthers_write (s := s) _ _ _) h
  | data offset vs =>
    rw [exec_dataOf] at h
    exact leavesOthers_of_gated (leavesOthers_streamData _ vs) h
  | finish =>
    rw [exec_endOf] at h
    exact leavesOthers_of_gated leavesOthers_streamEnd h

end

/-- R195: after two commands of different keys each key has the record that its command alone gives it. -/
theorem runInstrs_pair_reads {s a b : State} {k k' : ChannelKey} {i j : Instr} (hne : k ≠ k') (hi : StreamCommand k i)
    (hj : StreamCommand k' j) (ha : exec i s = .next a) (hb : exec j s = .next b) :
    ∃ t, runInstrs [i, j] s = .next t ∧ (Memory.wf s.streams → Memory.wf t.streams) ∧ t.stream k = a.stream k ∧
      t.stream k' = b.stream k' ∧ ∀ c, c ≠ k → c ≠ k' → t.stream c = s.stream c := by
  have hfirst := leavesOthers_exec hi ha
  have hagree : AgreeOn k' s a := ⟨hfirst.cfg.symm, hfirst.gate.symm, (hfirst.others k' hne.symm).symm⟩
  obtain ⟨b', t, hb', ht, hrecord, -⟩ := sameAnswer_exec hj hagree
  cases hb.symm.trans hb'
  have hsecond := leavesOthers_exec hj ht
  refine ⟨t, ?_, fun h => hsecond.table (hfirst.table h), hsecond.others k hne, hrecord.symm,
    fun c hc hc' => (hsecond.others c hc').trans (hfirst.others c hc)⟩
  rw [runInstrs_cons ha, runInstrs_cons ht, runInstrs]

/-! ### The canonical table -/

/-- A key that does not read IDLE has an entry with what it reads. -/
theorem Memory.mem_of_read_ne_idle {k : ChannelKey} : ∀ {m : Memory}, Memory.read m k ≠ StreamRec.idle →
    (k, Memory.read m k) ∈ m
  | [], h => absurd rfl h
  | (k', r) :: m, h => by
    by_cases hk : k' = k
    · simp [Memory.read, hk]
    · simp only [Memory.read, hk, if_false] at h ⊢
      exact List.mem_cons_of_mem _ (Memory.mem_of_read_ne_idle h)

/-- In canonical form the entries are the keys that do not read IDLE, with what they read. -/
theorem Memory.mem_iff_read {m : Memory} (hm : Memory.wf m) (e : ChannelKey × StreamRec) :
    e ∈ m ↔ Memory.read m e.1 = e.2 ∧ e.2 ≠ StreamRec.idle := by
  constructor
  · exact fun he => ⟨Memory.read_eq_of_mem hm he, hm.2 e he⟩
  · rintro ⟨hread, hne⟩
    have hmem := Memory.mem_of_read_ne_idle (k := e.1) (hread ▸ hne)
    rwa [hread] at hmem

/-- The order of the canonical form. -/
def entryBefore (a b : ChannelKey × StreamRec) : Prop := keyIndex a.1 < keyIndex b.1

end Sys2Proof.Machine
end

section
/-! PROOFS. Whole streams, streams of different keys, and the stream table (44_stream_commands.md section 4; 10_state.md R34;
70_reset_and_hazards.md R266). -/

namespace Sys2Proof.Machine

/-- Settles O43: START opens the record, every DATA frame is appended, and the END finds the declared size. -/
theorem completeStreamIsDeliveredInOrder : Obligations.CompleteStreamIsDeliveredInOrder := by
  intro s k size frames hs hsize hoff
  obtain ⟨a, hstart, hopened, hkeep⟩ := exec_startOf_collected hs k size
  have ha : a.gate = .matched := hkeep.gate.trans hs
  obtain ⟨b, hdata, hfull, hkeep'⟩ := runInstrs_dataCommands_appends k size.toNat frames a [] ha hopened
    (by simpa [hkeep.cfg] using hoff) (by simp [hsize])
  have hend := exec_endOf_of_complete (hkeep'.gate.trans ha) hfull hsize
  rw [hkeep'.events, hkeep.events] at hend
  rw [streamOf_eq, runInstrs_cons hstart]
  exact ended_frame (hkeep.trans hkeep') (runInstrs_append_singleton hdata hend)

/-- Settles O44: the record holds the samples of the frames that were kept; the END delivers them if they are of the
declared number and the stream was not truncated. -/
theorem noPartialStreamIsDelivered : Obligations.NoPartialStreamIsDelivered := by
  intro s k size frames hs
  obtain ⟨a, hstart, hopened, hkeep⟩ := exec_startOf_collected hs k size
  have ha : a.gate = .matched := hkeep.gate.trans hs
  obtain ⟨b, kept, trunc, hdata, hsub, hheld, hkeep'⟩ :=
    runInstrs_dataCommands_collected k size.toNat frames a [] false ha hopened
  have hb : b.gate = .matched := hkeep'.gate.trans ha
  have hevents : b.events = s.events := hkeep'.events.trans hkeep.events
  rw [streamOf_eq, runInstrs_cons hstart]
  by_cases hwhole : trunc = false ∧ (samplesOf kept).length = size.toNat
  · obtain ⟨rfl, hlen⟩ := hwhole
    have hend := exec_endOf_of_complete hb hheld hlen
    rw [hevents] at hend
    obtain ⟨t, hrun, hidle, -, hframe⟩ := ended_frame (hkeep.trans hkeep') (runInstrs_append_singleton hdata hend)
    have hdelivered : t.events = s.events ++ [.onStreamComplete k (samplesOf kept)] := by rw [hframe]; rfl
    refine ⟨t, hrun, hidle, .inr ⟨kept, hsub, hlen, hdelivered⟩, fun hshort => ?_⟩
    have := samplesOf_length_le hsub
    omega
  · have hpart : (b.stream k).truncated = true ∨ (b.stream k).cursor ≠ (b.stream k).declaredSize := by
      rw [hheld]
      cases trunc with
      | true => exact .inl rfl
      | false => exact .inr fun hlen => hwhole ⟨rfl, hlen⟩
    have hend := exec_endOf_of_incomplete hb (by rw [hheld]; rfl) hpart
    rw [hevents] at hend
    obtain ⟨t, hrun, hidle, -, hframe⟩ := ended_frame (hkeep.trans hkeep') (runInstrs_append_singleton hdata hend)
    have hsilent : t.events = s.events := by rw [hframe]
    exact ⟨t, hrun, hidle, .inl hsilent, fun _ => hsilent⟩

/-- Settles O45: the DATA frames change the verdict alone, and the END finds the stream truncated. -/
theorem overflowPoisonsUntilTheEnd : Obligations.OverflowPoisonsUntilTheEnd := by
  intro s k frames hs hst ht
  obtain ⟨v, hdata⟩ := runInstrs_dataCommands_of_truncated k frames s hs hst ht
  have hend := exec_endOf_of_incomplete (t := { s with verdict := v }) hs hst (.inl ht)
  exact ended_frame (s := s) ⟨fun _ _ => rfl, rfl⟩ (runInstrs_append_singleton hdata hend)

/-- Settles O46: the first frame has moved the cursor past its own offset. -/
theorem duplicateDataIsDropped : Obligations.DuplicateDataIsDropped := by
  intro s k offset vs hs hpolicy hst ht hoff hne hlen
  have hpos : 0 < vs.length := List.length_pos_iff.2 hne
  have hfirst := exec_dataOf_of_matched hs k offset vs
  rw [streamData_of_fits hst ht (.inr hoff) hlen] at hfirst
  obtain ⟨t, hrun, hrecord, -, hframe⟩ := next_of_record_written hfirst
  have hcursor : (t.stream k).cursor = offset.toNat + vs.length := by rw [hrecord, hoff]
  have hmismatch : streamData k offset.toNat vs t =
      t.conclude (.streamOffsetMismatch offset.toNat (t.stream k).cursor) :=
    streamData_of_offset_mismatch (by rw [hrecord]; exact hst) (by rw [hrecord]; exact ht)
      (by rw [hframe]; exact hpolicy) (by omega)
  refine ⟨t, hrun, ?_⟩
  rw [exec_dataOf_of_matched (by rw [hframe]; exact hs), hmismatch, hcursor]
  rfl

/-- Settles O47: a stream command reads the configuration, the gate and its key's record alone. -/
theorem streamCommandsSeeOnlyTheirKey : Obligations.StreamCommandsSeeOnlyTheirKey := by
  intro s s' k i hi hcfg hgate hrecord
  obtain ⟨t, t', ht, ht', hstream, hverdict, es, hes, hes'⟩ := sameAnswer_exec hi ⟨hcfg, hgate, hrecord⟩
  exact ⟨t, t', es, ht, ht', hstream, hverdict, hes, hes'⟩

/-- Settles O49: a canonical table lists, in its one order, the keys that do not read IDLE. -/
theorem equalReadsMeanEqualTables : Obligations.EqualReadsMeanEqualTables := by
  intro m m' hm hm' hread
  have hantisymm : Std.Antisymm entryBefore := ⟨fun _ _ hab hba => absurd hba (Nat.lt_asymm hab)⟩
  have hirrefl : Std.Irrefl entryBefore := ⟨fun _ => Nat.lt_irrefl _⟩
  refine List.Pairwise.eq_of_mem_iff (r := entryBefore) hm.1 hm'.1 fun e => ?_
  rw [Memory.mem_iff_read hm, Memory.mem_iff_read hm', hread]

/-- Settles O48: in either order every key ends with the same record, and canonical tables that read alike are equal. -/
theorem streamsOfDifferentKeysCommute : Obligations.StreamsOfDifferentKeysCommute := by
  intro s k k' i j hne hi hj hwf
  obtain ⟨a, -, ha, -⟩ := sameAnswer_exec (s' := s) hi ⟨rfl, rfl, rfl⟩
  obtain ⟨b, -, hb, -⟩ := sameAnswer_exec (s' := s) hj ⟨rfl, rfl, rfl⟩
  obtain ⟨t, ht, htable, htk, htk', hto⟩ := runInstrs_pair_reads hne hi hj ha hb
  obtain ⟨u, hu, hutable, huk', huk, huo⟩ := runInstrs_pair_reads hne.symm hj hi hb ha
  refine ⟨t, u, ht, hu, equalReadsMeanEqualTables _ _ (htable hwf) (hutable hwf) fun c => ?_⟩
  by_cases hck : c = k
  · subst hck; exact htk.trans huk.symm
  · by_cases hck' : c = k'
    · subst hck'; exact htk'.trans huk'.symm
    · exact (hto c hck hck').trans (huo c hck' hck).symm

end Sys2Proof.Machine
end
